-- ==== Sys2Proof/Word.lean ====
section
/-! DEFINITION. The widths of the block: bytes, 32-bit words and the 256-entry byte arrays
(00_scope.md rules R9, R10, R11). No value of the block is signed, and arithmetic on `Byte` is
modulo 256 because it is `BitVec 8` arithmetic. -/

namespace Sys2Proof

/-- An unsigned 8-bit integer (R10): a table entry, a cursor, a key, nonce or keystream byte. -/
abbrev Byte := BitVec 8

/-- An unsigned 32-bit integer (R10): a register value, a command word, bus data. -/
abbrev Word := BitVec 32

/-- A fixed array of 256 bytes addressed by an 8-bit index: S1, S2 (R9, R24) and KEY RAM (R28). -/
abbrev Table := Vector Byte 256

end Sys2Proof
end

