-- ==== Sys2Proof/Config.lean ====
section
/-! DEFINITION. The implementation parameters of 00_scope.md rule R7, the well-formedness of a
parameter set (R8), and the free values: the parameters of the block that `State.reset` describes
have no body, because "None of them has a value in the source". -/

namespace Sys2Proof

/-- A candidate parameter set, before it is checked (R7). `LEN_A` and `LEN_C` are the lengths of
the two lists. `blockBase` is a bus address, a natural number because the spec gives the bus
address no width. `DMEM_INIT`, a draw of every reset, is held apart (`Config.dmemInit`). -/
structure RawParams where
  /-- TABLE_A, the multiplier constants (R26, R110). -/
  tableA : List Byte
  /-- TABLE_C, the increment constants (R26, R110). -/
  tableC : List Byte
  /-- DMEM_SIZE, the bytes of the data memory. -/
  dmemSize : Nat
  /-- BLOCK_BASE, the bus address of block offset 0x0000. -/
  blockBase : Nat
  deriving DecidableEq, Repr

/-- `LEN` is in 1..256 (R7, R8). -/
def RawParams.lengthOk (t : List Byte) : Bool := decide (1 ≤ t.length) && decide (t.length ≤ 256)

/-- Every multiplier satisfies `a mod 4 = 1` (R8). -/
def RawParams.multipliersOk (t : List Byte) : Bool := t.all fun a => decide (a.toNat % 4 = 1)

/-- Every increment is odd (R8). -/
def RawParams.incrementsOk (t : List Byte) : Bool := t.all fun c => decide (c.toNat % 2 = 1)

/-- `4 <= DMEM_SIZE <= 2^31`, a multiple of 4 (R7). -/
def RawParams.dmemSizeOk (n : Nat) : Bool :=
  decide (4 ≤ n) && decide (n ≤ 2 ^ 31) && decide (n % 4 = 0)

/-- `BLOCK_BASE` is a multiple of 4 (R7). -/
def RawParams.blockBaseOk (n : Nat) : Bool := decide (n % 4 = 0)

/-- A parameter set is well-formed exactly when it meets R8 and the constraints of R7's table. -/
def RawParams.wellFormed (p : RawParams) : Bool :=
  RawParams.lengthOk p.tableA && RawParams.lengthOk p.tableC &&
  RawParams.multipliersOk p.tableA && RawParams.incrementsOk p.tableC &&
  RawParams.dmemSizeOk p.dmemSize && RawParams.blockBaseOk p.blockBase

/-- A well-formed parameter set. The proof field is the refusal of 93_implementation_defined.md U4:
"the model is not instantiated with such a set". -/
structure Params extends RawParams where
  /-- The check of R7 and R8 answers true. -/
  ok : toRawParams.wellFormed = true
  deriving DecidableEq, Repr

/-- LEN_A is at least 1, so constant selection never divides by zero (R113). -/
theorem Params.tableA_pos (p : Params) : 0 < p.tableA.length := by
  have h := p.ok
  simp only [RawParams.wellFormed, RawParams.lengthOk, Bool.and_eq_true, decide_eq_true_eq] at h
  omega

/-- LEN_C is at least 1, so constant selection never divides by zero (R113). -/
theorem Params.tableC_pos (p : Params) : 0 < p.tableC.length := by
  have h := p.ok
  simp only [RawParams.wellFormed, RawParams.lengthOk, Bool.and_eq_true, decide_eq_true_eq] at h
  omega

/-! ### The free values

Each opaque constant ranges over exactly the values R7 and R8 allow one parameter to take, written
without the constraint (a multiplier is `4u + 1`, an increment `2u + 1`, and so on), so the parameter
set below is well-formed whatever the constants are and nothing else is known of it
(notes/assumptions/1.md). -/

/-- `LEN_A - 1`. -/
opaque Config.lenAFree : BitVec 8
/-- The multiplier `TABLE_A[k]` is `4 u + 1` for this `u`. -/
opaque Config.multiplierFree : Nat → BitVec 6
/-- `LEN_C - 1`. -/
opaque Config.lenCFree : BitVec 8
/-- The increment `TABLE_C[k]` is `2 u + 1` for this `u`. -/
opaque Config.incrementFree : Nat → BitVec 7
/-- `DMEM_SIZE` is `4 (u + 1)` for this `u`. -/
opaque Config.dmemSizeFree : BitVec 29
/-- `BLOCK_BASE` is `4 u` for this `u`. -/
opaque Config.blockBaseFree : Nat
/-- `DMEM_INIT`, the DMEM contents after the reset that `State.reset` describes: any bytes (R7, R43,
93_implementation_defined.md U5). Byte `a` is entry `a`, and a list shorter than DMEM stands for
itself followed by zeros, so every contents is some list. -/
opaque Config.dmemInit : List Byte

/-- The parameter set of `State.reset`, made of the free values, before its check. -/
def Config.rawParams : RawParams where
  tableA := (List.range (Config.lenAFree.toNat + 1)).map fun k =>
    BitVec.ofNat 8 (4 * (Config.multiplierFree k).toNat + 1)
  tableC := (List.range (Config.lenCFree.toNat + 1)).map fun k =>
    BitVec.ofNat 8 (2 * (Config.incrementFree k).toNat + 1)
  dmemSize := 4 * (Config.dmemSizeFree.toNat + 1)
  blockBase := 4 * Config.blockBaseFree

/-- Lengths made from a `BitVec 8` are in 1..256. -/
theorem RawParams.lengthOk_of_bits (n : BitVec 8) (f : Nat → Byte) :
    RawParams.lengthOk ((List.range (n.toNat + 1)).map f) = true := by
  have := n.isLt
  simp only [RawParams.lengthOk, List.length_map, List.length_range, Bool.and_eq_true]
  exact ⟨decide_eq_true (by omega), decide_eq_true (by omega)⟩

/-- A byte `4 u + 1` is a multiplier R8 allows. -/
theorem RawParams.multipliersOk_of_bits (n : Nat) (f : Nat → BitVec 6) :
    RawParams.multipliersOk ((List.range n).map fun k => BitVec.ofNat 8 (4 * (f k).toNat + 1)) = true := by
  simp only [RawParams.multipliersOk, List.all_eq_true, List.mem_map, forall_exists_index, and_imp,
    forall_apply_eq_imp_iff₂, BitVec.toNat_ofNat]
  exact fun k _ => decide_eq_true (by omega)

/-- A byte `2 u + 1` is an increment R8 allows. -/
theorem RawParams.incrementsOk_of_bits (n : Nat) (f : Nat → BitVec 7) :
    RawParams.incrementsOk ((List.range n).map fun k => BitVec.ofNat 8 (2 * (f k).toNat + 1)) = true := by
  simp only [RawParams.incrementsOk, List.all_eq_true, List.mem_map, forall_exists_index, and_imp,
    forall_apply_eq_imp_iff₂, BitVec.toNat_ofNat]
  exact fun k _ => decide_eq_true (by omega)

/-- A size `4 (u + 1)` with `u` of 29 bits is a DMEM_SIZE R7 allows. -/
theorem RawParams.dmemSizeOk_of_bits (n : BitVec 29) :
    RawParams.dmemSizeOk (4 * (n.toNat + 1)) = true := by
  have := n.isLt
  simp only [RawParams.dmemSizeOk, Bool.and_eq_true]
  exact ⟨⟨decide_eq_true (by omega), decide_eq_true (by omega)⟩, decide_eq_true (by omega)⟩

/-- Whatever the free values are, R7 and R8 hold of the parameter set made of them. -/
theorem Config.rawParams_wellFormed : Config.rawParams.wellFormed = true := by
  simp only [RawParams.wellFormed, Bool.and_eq_true]
  exact ⟨⟨⟨⟨⟨RawParams.lengthOk_of_bits _ _, RawParams.lengthOk_of_bits _ _⟩,
    RawParams.multipliersOk_of_bits _ _⟩, RawParams.incrementsOk_of_bits _ _⟩,
    RawParams.dmemSizeOk_of_bits _⟩, decide_eq_true (by simp [Config.rawParams])⟩

/-- The parameter set of the block that `State.reset` describes: well-formed, and otherwise free. -/
def Config.params : Params := ⟨Config.rawParams, Config.rawParams_wellFormed⟩

end Sys2Proof
end

