-- ==== Sys2Proof/Syntax.lean ====
section
/-! DEFINITION. The commands of the block: the one instruction type (30_encoding.md rule R91), the
fields of the one command format CMD32 (R90), and what a command word decodes to (R95). -/

namespace Sys2Proof

/-- The five commands, one for each row of spec/opcode_table.json. No command has an operand field
or an immediate (R92), so no constructor has an argument. -/
inductive Instr where
  /-- INIT, word 0x00000001 (44_lifecycle.md rule R193). -/
  | init
  /-- INIT_SEED, word 0x00000002 (44_lifecycle.md rule R194). -/
  | initSeed
  /-- TRANSFORM, word 0x00000003 (43_transform.md rule R174). -/
  | transform
  /-- TRANSFORM_FINAL, word 0x00000004 (43_transform.md rule R176). -/
  | transformFinal
  /-- DISPOSE, word 0x00000005 (44_lifecycle.md rule R196). -/
  | dispose
  deriving DecidableEq, Repr

/-- The fields of the format CMD32 (R90): OPCODE is bits 7:0 and MBZ bits 31:8. -/
structure Cmd32 where
  /-- The command selector, bits 7:0. -/
  opcode : Byte
  /-- Must be zero, bits 31:8. -/
  mbz : BitVec 24
  deriving DecidableEq, Repr

/-- Why a command word is ILLEGAL. The host sees one code for both, ILLEGAL_COMMAND (R211). -/
inductive IllegalWord where
  /-- The MBZ field is not zero, whatever the OPCODE (R93). -/
  | mbzNotZero
  /-- MBZ is zero and the OPCODE is 0x00 or 0x06 to 0xFF (R94). -/
  | reservedOpcode
  deriving DecidableEq, Repr

/-- What a word decodes to: one of the five commands, or ILLEGAL (R95). -/
inductive Decoded where
  /-- A command of R91. -/
  | command (i : Instr)
  /-- ILLEGAL, with the reason. -/
  | illegal (why : IllegalWord)
  deriving DecidableEq, Repr

end Sys2Proof
end

