-- ==== Sys2Proof/WellFormed.lean ====
section
/-! DEFINITION. What is a well-formed command. A command has no operand (30_encoding.md rule R92), so
every `Instr` is well-formed; what can be ill-formed is the word a host writes, read as the fields of
CMD32 (R93, R94), and a parameter set (00_scope.md rule R8; its check is `RawParams.wellFormed`). -/

namespace Sys2Proof

/-- MBZ is zero (R93). -/
def Cmd32.mbzIsZero (c : Cmd32) : Bool := c.mbz == 0

/-- The OPCODE is one that R91 assigns: not 0x00 and not 0x06 to 0xFF (R94). -/
def Cmd32.opcodeIsAssigned (c : Cmd32) : Bool :=
  decide (1 ≤ c.opcode.toNat) && decide (c.opcode.toNat ≤ 5)

/-- The fields are those of a command of R91. -/
def Cmd32.wellFormed (c : Cmd32) : Bool := c.mbzIsZero && c.opcodeIsAssigned

/-- Every command is well-formed, since "No command has an operand field or an immediate" (R92). -/
def Instr.wellFormed : Instr → Bool
  | .init => true
  | .initSeed => true
  | .transform => true
  | .transformFinal => true
  | .dispose => true

end Sys2Proof
end

