-- ==== Sys2Proof/Decode.lean ====
section
/-! DEFINITION. Command decoding and encoding (30_encoding.md rules R90 to R95). Decoding is total on
32-bit words, the one length a command has. -/

namespace Sys2Proof

/-- The fields of a command word (R90). -/
def fieldsOf (w : Word) : Cmd32 := ⟨w.extractLsb' 0 8, w.extractLsb' 8 24⟩

/-- The command an OPCODE value selects, and none for a reserved value (R91, R94). -/
def decodeOpcode (op : Byte) : Option Instr :=
  if op = 0x01 then some .init
  else if op = 0x02 then some .initSeed
  else if op = 0x03 then some .transform
  else if op = 0x04 then some .transformFinal
  else if op = 0x05 then some .dispose
  else none

/-- Decode a command word (R95). The MBZ field is tested before the OPCODE (R93: "whatever its
OPCODE"). -/
def decode (w : Word) : Decoded :=
  let f := fieldsOf w
  if f.mbz = 0 then
    match decodeOpcode f.opcode with
    | some i => .command i
    | none => .illegal .reservedOpcode
  else .illegal .mbzNotZero

/-- The decoder on a word numbered as spec/opcode_table.json numbers it. A command is one 32-bit
word, so a longer value that does not fit in it is no command. -/
def decodeTableWord (nbits w : Nat) : Option Instr :=
  if w % 2 ^ nbits < 2 ^ 32 then
    match decode (BitVec.ofNat 32 (w % 2 ^ nbits)) with
    | .command i => some i
    | .illegal _ => none
  else none

/-! ### The encoder -/

/-- The OPCODE of each command (R91). -/
def opcodeOf : Instr → Byte
  | .init => 0x01
  | .initSeed => 0x02
  | .transform => 0x03
  | .transformFinal => 0x04
  | .dispose => 0x05

/-- The word that holds these fields (R90). -/
def wordOf (c : Cmd32) : Word := c.mbz ++ c.opcode

/-- The word of a command: its OPCODE, with MBZ zero (R91). -/
def encode (i : Instr) : Word := wordOf ⟨opcodeOf i, 0⟩

end Sys2Proof
end

