-- ==== Sys2Proof/Machine/State.lean ====
section
/-! DEFINITION. The state of the block (10_state.md rule R20), as plain data: its architectural state,
its configuration, what the outside world is about to do to it, and what its reads have answered. -/

namespace Sys2Proof.Machine

/-- LSTATE, the lifecycle state (R27). No rule writes the code 3, so it has no name here
(notes/assumptions/3.md). -/
inductive LState where
  /-- 0: no instance, after reset or only failed INITs since reset. -/
  | uninitialized
  /-- 1: an instance is keyed; transforms are accepted. -/
  | ready
  /-- 2: the last instance was disposed; state was cleared. -/
  | disposed
  deriving DecidableEq, Repr

/-- ERR, the error code of the most recently completed command (R31, R211). The codes 6 to 15 are
never written, so they have no name here (notes/assumptions/3.md). -/
inductive ErrCode where
  /-- 0 NONE: success. -/
  | none
  /-- 1 INVALID_ARGUMENT. -/
  | invalidArgument
  /-- 2 OUT_OF_RANGE. -/
  | outOfRange
  /-- 3 NOT_READY: a transform in UNINITIALIZED. -/
  | notReady
  /-- 4 DISPOSED: a transform in DISPOSED. -/
  | disposed
  /-- 5 ILLEGAL_COMMAND. -/
  | illegalCommand
  deriving DecidableEq, Repr

/-- One permutation table with its cursor pair (R22, R24): S1 with (X1, Y1), or S2 with (X2, Y2). -/
structure Generator where
  /-- The 256 entries. -/
  table : Table
  /-- The cursor x. -/
  x : Byte
  /-- The cursor y. -/
  y : Byte
  deriving DecidableEq, Repr

/-- The eleven registers the host reads and writes and no command writes (R37 to R40). -/
structure HostRegs where
  /-- KEYLEN (0x00C, R37). -/
  keylen : Word
  /-- NONCE (0x010, R38). -/
  nonce : Word
  /-- NONCE_LEN (0x014, R37). -/
  nonceLen : Word
  /-- ARGF (0x018, R39): bit 0 is IN_PRESENT, bit 1 OUT_PRESENT; the reserved bits are not stored. -/
  argf : BitVec 2
  /-- IN_BASE (0x01C, R40). -/
  inBase : Word
  /-- IN_LEN (0x020, R40). -/
  inLen : Word
  /-- IN_OFF (0x024, R40). -/
  inOff : Word
  /-- COUNT (0x028, R40). -/
  count : Word
  /-- OUT_BASE (0x02C, R40). -/
  outBase : Word
  /-- OUT_LEN (0x030, R40). -/
  outLen : Word
  /-- OUT_OFF (0x034, R40). -/
  outOff : Word
  deriving DecidableEq, Repr

/-- The registers of the map of R33, by name. -/
inductive Reg where
  | cmd
  | status
  | result
  | keylen
  | nonce
  | nonceLen
  | argf
  | inBase
  | inLen
  | inOff
  | count
  | outBase
  | outLen
  | outOff
  deriving DecidableEq, Repr

/-- The DMEM bytes that differ from DMEM_INIT, by DMEM offset, in the canonical form `Memory.wf`. -/
abbrev Memory := List Host.Cell

/-- The size of a bus access (20_memory.md rules R61 to R63, R66). -/
inductive Width where
  /-- 8 bits. -/
  | byte
  /-- 16 bits. -/
  | half
  /-- 32 bits. -/
  | word
  deriving DecidableEq, Repr

/-- One access of a bus master at a bus address (R6). An 8-bit or 16-bit write carries its data in
the low bits (R65). -/
inductive Access where
  /-- A read of this size at this bus address. -/
  | read (width : Width) (addr : Nat)
  /-- A write of this size at this bus address. -/
  | write (width : Width) (addr : Nat) (data : Word)
  deriving DecidableEq, Repr

/-- What the outside world, and the passing of time, does to the block. The order of a list of inputs
fixes what the spec leaves open: the interleaving of several masters (R73) and when a command
completes (R246). See notes/assumptions/4.md. -/
inductive Input where
  /-- A bus access reaches the target port. -/
  | access (a : Access)
  /-- The ENGINE's turn: the running command completes here, before the inputs that follow. -/
  | engine
  /-- The reset input is asserted and released (R240). `draw` is DMEM_INIT of this reset;
  `answersHeld` says whether the platform still completes a cancelled access on the bus (R241). -/
  | reset (draw : List Byte) (answersHeld : Bool)
  deriving DecidableEq, Repr

/-- The state. The first group is the spec's (R20); `params` is configuration, which no step writes;
`inputs` and `replies` are the model's own. -/
structure State where
  /-- S1, X1, Y1. -/
  gen1 : Generator
  /-- S2, X2, Y2. -/
  gen2 : Generator
  /-- LSTATE. -/
  lstate : LState
  /-- KEY RAM. -/
  keyRam : Table
  /-- DMEM, as what differs from `dmemInit`. -/
  dmem : Memory
  /-- DMEM_INIT of the latest reset: what a DMEM byte that nothing has written since holds (R43). -/
  dmemInit : List Byte
  /-- BUSY. -/
  busy : Bool
  /-- ERR. -/
  err : ErrCode
  /-- RESULT. -/
  result : Word
  /-- CMDLATCH. -/
  cmdLatch : Word
  /-- KEYLEN, NONCE, NONCE_LEN, ARGF and the seven descriptor registers. -/
  regs : HostRegs
  /-- The parameters of 00_scope.md rule R7. -/
  params : Params
  /-- What is about to happen to the block, the next input first. -/
  inputs : List Input
  /-- What performed reads returned on the bus, the oldest first. -/
  replies : List Word
  deriving DecidableEq, Repr

/-- A table of zeros (R43, R196). -/
def zeroTable : Table := Vector.replicate 256 0

/-- A generator of zeros: the table and both cursors (R43, R196). -/
def Generator.zero : Generator := ⟨zeroTable, 0, 0⟩

/-- The host-written registers after reset (R43). -/
def HostRegs.zero : HostRegs := ⟨0, 0, 0, 0, 0, 0, 0, 0, 0, 0, 0⟩

/-- The state a reset leaves, for a block with these parameters whose DMEM then holds `draw`
(R43, R240). -/
def State.afterReset (params : Params) (draw : List Byte) : State where
  gen1 := Generator.zero
  gen2 := Generator.zero
  lstate := .uninitialized
  keyRam := zeroTable
  dmem := []
  dmemInit := draw
  busy := false
  err := .none
  result := 0
  cmdLatch := 0
  regs := HostRegs.zero
  params := params
  inputs := []
  replies := []

/-- The machine right after reset, with the parameters and DMEM_INIT free. -/
def State.reset : State := State.afterReset Config.params Config.dmemInit

/-- Why a step can end in a fault: never. "An error is never a fault of the model" (60_exceptions.md
rule R210), "The block never answers a host access with a bus error" (R218), and the two states
93_implementation_defined.md marks as faults (U9, U10) are no values of `LState` and `ErrCode`. -/
inductive Fault
  deriving DecidableEq, Repr

/-- Why a step can be refused. -/
inductive Refusal where
  /-- The instruction with this mnemonic has no meaning yet. Raised by an arm of `exec` only, and by
  none now that every instruction has its meaning. Safe: the model stops. -/
  | notModelled (mnemonic : String)
  deriving DecidableEq, Repr

end Sys2Proof.Machine
end

