-- ==== Sys2Proof/Machine/Ops.lean ====
section
/-! DEFINITION. The named operations over tables, KEY RAM, DMEM and the state that every command and
every bus access is written with (00_scope.md rule R12), and the one operation an error is
(60_exceptions.md rule R214). -/

namespace Sys2Proof.Machine

/-! ### Byte lanes (20_memory.md rule R65) -/

/-- Byte lane `i` of a word: bits `8i+7 : 8i`. -/
def laneByte (w : Word) (i : Nat) : Byte := w.extractLsb' (8 * i) 8

/-- The word whose lanes, from lane 0 up, are these bytes, with the missing high lanes zero. -/
def wordOfLanes : List Byte → Word
  | [] => 0
  | b :: bs => (b.setWidth 32) ||| (wordOfLanes bs <<< 8)

/-- The number of bytes an access of this size moves. -/
def Width.bytes : Width → Nat
  | .byte => 1
  | .half => 2
  | .word => 4

/-! ### Tables (R12, R24) -/

/-- Read table entry `i`. -/
def tableGet (t : Table) (i : Byte) : Byte := t[i.toNat]'i.isLt

/-- Write table entry `i`. -/
def tableSet (t : Table) (i v : Byte) : Table := t.set i.toNat v i.isLt

/-- `swap(T, i, j)`: the three-step exchange of R12, `t <- T[i]; T[i] <- T[j]; T[j] <- t`. -/
def tableSwap (t : Table) (i j : Byte) : Table :=
  tableSet (tableSet t i (tableGet t j)) j (tableGet t i)

/-! ### DMEM (R29) -/

/-- What a DMEM byte that nothing has written since reset holds: DMEM_INIT (R43). -/
def Memory.unlisted (init : List Byte) (a : Nat) : Byte := init.getD a 0

/-- Read the byte at DMEM offset `a`. -/
def Memory.read (init : List Byte) : Memory → Nat → Byte
  | [], a => Memory.unlisted init a
  | (k, b) :: m, a => if k = a then b else Memory.read init m a

/-- Put `b` at `a` in front of cells whose addresses are above `a`, unless DMEM_INIT holds `b` there. -/
def Memory.place (init : List Byte) (a : Nat) (b : Byte) (m : Memory) : Memory :=
  if b = Memory.unlisted init a then m else (a, b) :: m

/-- Write the byte `b` at DMEM offset `a`, keeping the canonical form. -/
def Memory.write (init : List Byte) : Memory → Nat → Byte → Memory
  | [], a, b => Memory.place init a b []
  | (k, c) :: m, a, b =>
    if a < k then Memory.place init a b ((k, c) :: m)
    else if k = a then Memory.place init a b m
    else (k, c) :: Memory.write init m a b

/-- The canonical form: addresses strictly rising, and no entry that DMEM_INIT already holds. -/
abbrev Memory.wf (init : List Byte) (m : Memory) : Prop :=
  m.Pairwise (fun p q => p.1 < q.1) ∧ ∀ c ∈ m, c.2 ≠ Memory.unlisted init c.1

/-- Every listed address is a DMEM offset (R29: 0 to DMEM_SIZE - 1). -/
abbrev Memory.inside (size : Nat) (m : Memory) : Prop := ∀ c ∈ m, c.1 < size

/-- `MemRead(a, 1)` (R12). -/
def State.memRead (s : State) (a : Nat) : Byte := Memory.read s.dmemInit s.dmem a

/-- `MemWrite(a, 1, b)` (R12). -/
def State.memWrite (s : State) (a : Nat) (b : Byte) : State :=
  { s with dmem := Memory.write s.dmemInit s.dmem a b }

/-! ### KEY RAM (R28) -/

/-- `KeyRead(i)` for an index below 256 (R12). -/
def keyRead (ram : Table) (i : Nat) (h : i < 256) : Byte := ram[i]'h

/-- Write KEY RAM byte `i`. -/
def State.keyWrite (s : State) (i b : Byte) : State := { s with keyRam := tableSet s.keyRam i b }

/-- Zero KEY RAM (R196). -/
def State.clearKey (s : State) : State := { s with keyRam := zeroTable }

/-! ### Registers, cursors and tables -/

/-- Store both tables with their cursor pairs. -/
def State.setGenerators (s : State) (g1 g2 : Generator) : State := { s with gen1 := g1, gen2 := g2 }

/-- Write LSTATE. -/
def State.setLState (s : State) (l : LState) : State := { s with lstate := l }

/-- Write the host-written registers. -/
def State.setRegs (s : State) (r : HostRegs) : State := { s with regs := r }

/-- A command word is accepted: `CMDLATCH <- w; BUSY <- 1` (R34, R244). -/
def State.acceptCommand (s : State) (w : Word) : State := { s with cmdLatch := w, busy := true }

/-- `BUSY <- 0`, the last act of a completion (R245). -/
def State.clearBusy (s : State) : State := { s with busy := false }

/-! ### The outcome of a command -/

/-- `raise Error(code)`, the one thing an error does: `ERR <- code; RESULT <- 0` and nothing else
(R214). BUSY is cleared at completion (R245), as for a success. An error enters no handler, so
there is no return from one (R216). -/
def State.raiseError (s : State) (code : ErrCode) : State := { s with err := code, result := 0 }

/-- A command succeeds with this returned value: `RESULT <- v; ERR <- NONE` (R31, R36). -/
def State.succeed (s : State) (v : Word) : State := { s with err := .none, result := v }

/-- Run `body` unless a check has raised an error (R214: "Every check runs before the first state
write of its command"). -/
def State.unlessError (s : State) (check : Option ErrCode) (body : State) : State :=
  match check with
  | some code => s.raiseError code
  | none => body

/-! ### The outside world -/

/-- A read returns this word on the bus. -/
def State.answer (s : State) (v : Word) : State := { s with replies := s.replies ++ [v] }

/-- The inputs that are still to come. -/
def State.setInputs (s : State) (is : List Input) : State := { s with inputs := is }

/-- Apply `f` to the state an outcome answers; a stop stays that stop. -/
def onNext (f : State → State) :
    Host.Outcome State Fault Refusal → Host.Outcome State Fault Refusal
  | .next s => .next (f s)
  | .fault r => .fault r
  | .refused r => .refused r

end Sys2Proof.Machine
end

