-- ==== Sys2Proof/Machine/Flags.lean ====
section
/-! DEFINITION. The status flags BUSY, LSTATE and ERR: their codes and the STATUS word the host reads
(10_state.md rules R27, R30 to R32, R35; 60_exceptions.md rule R211). -/

namespace Sys2Proof.Machine

/-- The 2-bit code of LSTATE (R27). -/
def LState.code : LState → BitVec 2
  | .uninitialized => 0
  | .ready => 1
  | .disposed => 2

/-- The 4-bit code of ERR (R211). -/
def ErrCode.code : ErrCode → BitVec 4
  | .none => 0
  | .invalidArgument => 1
  | .outOfRange => 2
  | .notReady => 3
  | .disposed => 4
  | .illegalCommand => 5

/-- `STATUS = zext_32({ERR, 1'b0, LSTATE, BUSY})` (R35). -/
def State.statusWord (s : State) : Word :=
  (s.err.code ++ (0 : BitVec 1) ++ s.lstate.code ++ BitVec.ofBool s.busy).setWidth 32

end Sys2Proof.Machine
end

