-- ==== Sys2Proof/Machine/Bus.lean ====
section
/-! DEFINITION. What a host access does (20_memory.md rules R60 to R68; 10_state.md rules R33 to R42):
the register map, the KEY and DMEM windows, alignment, byte lanes and reserved offsets. -/

namespace Sys2Proof.Machine

/-- The block offset of a bus address the platform routes to the block: a 32-bit offset from
BLOCK_BASE (R60, R7). -/
def busOffset (base addr : Nat) : Option Nat :=
  if base ≤ addr ∧ addr - base < 2 ^ 32 then some (addr - base) else none

/-- The register at a block offset of the register window (R33). Every other offset of the window is
reserved (R42). -/
def regAt : Nat → Option Reg
  | 0x000 => some .cmd
  | 0x004 => some .status
  | 0x008 => some .result
  | 0x00C => some .keylen
  | 0x010 => some .nonce
  | 0x014 => some .nonceLen
  | 0x018 => some .argf
  | 0x01C => some .inBase
  | 0x020 => some .inLen
  | 0x024 => some .inOff
  | 0x028 => some .count
  | 0x02C => some .outBase
  | 0x030 => some .outLen
  | 0x034 => some .outOff
  | _ => none

/-- What a 32-bit read of a register returns (R33 to R40). CMD reads 0. -/
def State.readReg (s : State) : Reg → Word
  | .cmd => 0
  | .status => s.statusWord
  | .result => s.result
  | .keylen => s.regs.keylen
  | .nonce => s.regs.nonce
  | .nonceLen => s.regs.nonceLen
  | .argf => s.regs.argf.setWidth 32
  | .inBase => s.regs.inBase
  | .inLen => s.regs.inLen
  | .inOff => s.regs.inOff
  | .count => s.regs.count
  | .outBase => s.regs.outBase
  | .outLen => s.regs.outLen
  | .outOff => s.regs.outOff

/-- What a 32-bit write of a register does (R33 to R40). A CMD write accepts a command word (R34), a
write to a read-only register is ignored, and ARGF keeps its two implemented bits. -/
def State.writeReg (s : State) (r : Reg) (v : Word) : State :=
  match r with
  | .cmd => s.acceptCommand v
  | .status => s
  | .result => s
  | .keylen => s.setRegs { s.regs with keylen := v }
  | .nonce => s.setRegs { s.regs with nonce := v }
  | .nonceLen => s.setRegs { s.regs with nonceLen := v }
  | .argf => s.setRegs { s.regs with argf := v.setWidth 2 }
  | .inBase => s.setRegs { s.regs with inBase := v }
  | .inLen => s.setRegs { s.regs with inLen := v }
  | .inOff => s.setRegs { s.regs with inOff := v }
  | .count => s.setRegs { s.regs with count := v }
  | .outBase => s.setRegs { s.regs with outBase := v }
  | .outLen => s.setRegs { s.regs with outLen := v }
  | .outOff => s.setRegs { s.regs with outOff := v }

/-- The windows of the host space that react to an access (R61 to R64). -/
inductive Window where
  /-- 0x000 to 0x0FF (R61). -/
  | register
  /-- 0x100 to 0x1FF (R62). -/
  | key
  /-- 0x1000 to 0x1000 + DMEM_SIZE - 1 (R63). -/
  | data
  /-- Every other offset (R64). -/
  | reserved
  deriving DecidableEq, Repr

/-- The window of a block offset (R61 to R64). -/
def windowOf (dmemSize off : Nat) : Window :=
  if off < 0x100 then .register
  else if off < 0x200 then .key
  else if off < 0x1000 then .reserved
  else if off < 0x1000 + dmemSize then .data
  else .reserved

/-- The access is aligned: the offset is a multiple of its size (R66). -/
def aligned (w : Width) (off : Nat) : Bool := decide (off % w.bytes = 0)

/-- `k` DMEM bytes from offset `a`, the lowest first. -/
def State.memBytes (s : State) (a : Nat) : Nat → List Byte
  | 0 => []
  | k + 1 => s.memRead a :: s.memBytes (a + 1) k

/-- Write `k` DMEM bytes from offset `a`: lane `i` of `v` goes to offset `a + i` (R65). -/
def State.memWriteLanes (s : State) (a : Nat) (v : Word) : Nat → State
  | 0 => s
  | k + 1 => (s.memWriteLanes a v k).memWrite (a + k) (laneByte v k)

/-- Write `k` KEY RAM bytes from index `a`: lane `i` of `v` goes to index `a + i` (R62, R65). -/
def State.keyWriteLanes (s : State) (a : Nat) (v : Word) : Nat → State
  | 0 => s
  | k + 1 => (s.keyWriteLanes a v k).keyWrite (BitVec.ofNat 8 (a + k)) (laneByte v k)

/-- What a read of this size at this block offset returns. A misaligned read (R66), a register read
that is not 32 bits wide (R61), a read of the key window (R62) and a read of a reserved offset
(R42, R64) return 0. -/
def State.busRead (s : State) (w : Width) (off : Nat) : Word :=
  if aligned w off = false then 0
  else
    match windowOf s.params.dmemSize off with
    | .register => if w = .word then ((regAt off).map s.readReg).getD 0 else 0
    | .key => 0
    | .data => wordOfLanes (s.memBytes (off - 0x1000) w.bytes)
    | .reserved => 0

/-- What a write of this size at this block offset does. A misaligned write (R66), a register write
that is not 32 bits wide (R61) and a write to a reserved offset (R42, R64) change nothing. -/
def State.busWrite (s : State) (w : Width) (off : Nat) (v : Word) : State :=
  if aligned w off = false then s
  else
    match windowOf s.params.dmemSize off with
    | .register => if w = .word then ((regAt off).map fun r => s.writeReg r v).getD s else s
    | .key => s.keyWriteLanes (off - 0x100) v w.bytes
    | .data => s.memWriteLanes (off - 0x1000) v w.bytes
    | .reserved => s

/-- A host access is performed (R68): a read returns a word and changes no state of the block. An
access at an address that is not routed to the block does nothing (notes/assumptions/8.md). -/
def State.perform (s : State) : Access → State
  | .read w addr =>
    match busOffset s.params.blockBase addr with
    | some off => s.answer (s.busRead w off)
    | none => s
  | .write w addr v =>
    match busOffset s.params.blockBase addr with
    | some off => s.busWrite w off v
    | none => s

/-- The access is the one kind that is performed while BUSY = 1: a 32-bit aligned read of STATUS
(R70). -/
def isStatusRead (base : Nat) : Access → Bool
  | .read .word addr => decide (busOffset base addr = some 0x004)
  | .read .byte _ => false
  | .read .half _ => false
  | .write _ _ _ => false

/-- A cancelled access that the platform still completes on the bus: "a read returns 0 and a write is
ignored" (R241). -/
def State.cancel (s : State) (a : Access) : State :=
  match a with
  | .read _ addr => if (busOffset s.params.blockBase addr).isSome then s.answer 0 else s
  | .write _ _ _ => s

end Sys2Proof.Machine
end

