-- ==== Sys2Proof/Machine/Operands.lean ====
section
/-! DEFINITION. The operands of the five commands (30_encoding.md rule R92), each formed from a fixed
register or memory: the key and nonce of INIT and INIT_SEED, and the descriptors, offsets and
effective addresses of the transforms (43_transform.md rule R172). Register values are read as
natural numbers, so a sum of two never wraps (00_scope.md rule R11). -/

namespace Sys2Proof.Machine

/-- The 4 nonce bytes (00_scope.md rule R9). -/
abbrev Nonce := Vector Byte 4

/-- `nonce[i] = NONCE[8i+7:8i]` for i in 0..3 (10_state.md rule R38). -/
def nonceOfWord (w : Word) : Nonce := #v[laneByte w 0, laneByte w 1, laneByte w 2, laneByte w 3]

/-- `KeyRead(i mod KEYLEN)` for i in 0..255 (41_ksa.md rule R131). The index is at most `i`, so it
stays inside KEY RAM for every KEYLEN. -/
def keyByte (ram : Table) (keylen : Nat) (i : Byte) : Byte :=
  keyRead ram (i.toNat % keylen) (Nat.lt_of_le_of_lt (Nat.mod_le _ _) i.isLt)

/-- A (base, length) pair naming a buffer inside DMEM (R40). -/
structure Descriptor where
  /-- The DMEM offset of the buffer's first byte. -/
  base : Nat
  /-- The buffer's length in bytes. -/
  length : Nat
  deriving DecidableEq, Repr

/-- The buffer lies in DMEM: `base + length <= DMEM_SIZE` (43_transform.md rule R170). -/
def Descriptor.fits (d : Descriptor) (size : Nat) : Bool := decide (d.base + d.length ≤ size)

/-- The slice of `count` bytes from `off` lies in the buffer: `off + count <= length` (R170). -/
def Descriptor.holds (d : Descriptor) (off count : Nat) : Bool := decide (off + count ≤ d.length)

/-- ARGF.IN_PRESENT (R39). -/
def State.inPresent (s : State) : Bool := s.regs.argf[0]

/-- ARGF.OUT_PRESENT (R39). -/
def State.outPresent (s : State) : Bool := s.regs.argf[1]

/-- The input buffer descriptor (IN_BASE, IN_LEN). -/
def State.inBuffer (s : State) : Descriptor := ⟨s.regs.inBase.toNat, s.regs.inLen.toNat⟩

/-- The output buffer descriptor (OUT_BASE, OUT_LEN) of TRANSFORM. -/
def State.outBuffer (s : State) : Descriptor := ⟨s.regs.outBase.toNat, s.regs.outLen.toNat⟩

/-- The fresh output buffer (OUT_BASE, COUNT) of TRANSFORM_FINAL (R176). -/
def State.freshBuffer (s : State) : Descriptor := ⟨s.regs.outBase.toNat, s.regs.count.toNat⟩

/-- `input_offset`. -/
def State.inOffset (s : State) : Nat := s.regs.inOff.toNat

/-- `output_offset`. -/
def State.outOffset (s : State) : Nat := s.regs.outOff.toNat

/-- `count`. -/
def State.countOf (s : State) : Nat := s.regs.count.toNat

/-- `ia(i) = IN_BASE + IN_OFF + i`, the DMEM byte position `i` reads (R172). -/
def State.inAddr (s : State) (i : Nat) : Nat := s.inBuffer.base + s.inOffset + i

/-- `oa(i) = ob + oo + i`, the DMEM byte position `i` writes (R172). -/
def outAddr (ob oo i : Nat) : Nat := ob + oo + i

end Sys2Proof.Machine
end

