-- ==== Sys2Proof/Machine/Initializer.lean ====
section
/-! DEFINITION. The second nonce, constant selection and the LCR initializer, the first internal
operations of INIT and INIT_SEED (40_initializer.md rules R112 to R117). -/

namespace Sys2Proof.Machine

/-- DeriveNonce2 (R112): 128 added to each byte, then the sequence rotated left by one position. -/
def deriveNonce2 (n : Nonce) : Nonce := #v[n[1] + 128, n[2] + 128, n[3] + 128, n[0] + 128]

/-- SelectConstants, the multiplier: `TABLE_A[n[2] mod LEN_A]` (R113). -/
def selectMultiplier (p : Params) (n : Nonce) : Byte :=
  p.tableA[n[2].toNat % p.tableA.length]'(Nat.mod_lt _ p.tableA_pos)

/-- SelectConstants, the increment: `TABLE_C[n[3] mod LEN_C]` (R113). -/
def selectIncrement (p : Params) (n : Nonce) : Byte :=
  p.tableC[n[3].toNat % p.tableC.length]'(Nat.mod_lt _ p.tableC_pos)

/-- One step of the recurrence, `x <- (a * x + c) mod 256` (R115). -/
def lcrNext (a c x : Byte) : Byte := a * x + c

/-- The next `k` table entries of the LCR loop whose working variable holds `x`: each iteration
updates `x` before it gives the entry `r XOR x` (R115). -/
def lcrEntries (a c r : Byte) : Nat → Byte → List Byte
  | 0, _ => []
  | k + 1, x => (r ^^^ lcrNext a c x) :: lcrEntries a c r k (lcrNext a c x)

/-- The loop gives as many entries as it has iterations. -/
theorem lcrEntries_length (a c r : Byte) (k : Nat) (x : Byte) :
    (lcrEntries a c r k x).length = k := by
  induction k generalizing x with
  | zero => rfl
  | succ k ih => simp [lcrEntries, ih]

/-- The LCR loop with its operands given (R114, R115): 256 entries from the seed `x`. -/
def lcrTable (a c r x : Byte) : Table :=
  ⟨(lcrEntries a c r 256 x).toArray, by simp [lcrEntries_length]⟩

/-- `LCR(n)` (R114, R115): `r = n[0]`, the seed is `n[1]`, and (a, c) come from R113. -/
def lcr (p : Params) (n : Nonce) : Table :=
  lcrTable (selectMultiplier p n) (selectIncrement p n) n[0] n[1]

end Sys2Proof.Machine
end

