-- ==== Sys2Proof/Machine/Prga.lean ====
section
/-! DEFINITION. The PRGA step, the keystream byte and the nonlinear combiner
(42_prga_combiner.md rules R150 to R155). -/

namespace Sys2Proof.Machine

/-- PrgaStep (R150): `x <- x + 1; y <- y + T[x]; swap(T, x, y)`, with `T[x]` read at the new x and
before the swap. -/
def prgaStep (g : Generator) : Generator :=
  let x := g.x + 1
  let y := g.y + tableGet g.table x
  ⟨tableSwap g.table x y, x, y⟩

/-- `n` PRGA steps in a row. -/
def prgaSteps (g : Generator) : Nat → Generator
  | 0 => g
  | n + 1 => prgaStep (prgaSteps g n)

/-- KsByte (R152): `T[(T[x] + T[y]) mod 256]` at the cursors a step has just returned. -/
def ksByte (g : Generator) : Byte :=
  tableGet g.table (tableGet g.table g.x + tableGet g.table g.y)

/-- Combine (R154): `(k1 + k2) XOR ((k1 << 5) OR (k2 >> 3))` on bytes, with logical shifts. -/
def combine (k1 k2 : Byte) : Byte := (k1 + k2) ^^^ ((k1 <<< 5) ||| (k2 >>> 3))

/-- The combined byte NextCombined returns at this state (R155): both tables step, S1 gives k1 and
S2 gives k2. -/
def State.combinedByte (s : State) : Byte :=
  combine (ksByte (prgaStep s.gen1)) (ksByte (prgaStep s.gen2))

/-- What NextCombined writes (R155): one step of each table and its cursors. -/
def State.stepGenerators (s : State) : State := s.setGenerators (prgaStep s.gen1) (prgaStep s.gen2)

end Sys2Proof.Machine
end

