-- ==== Sys2Proof/Machine/KeyScheduler.lean ====
section
/-! DEFINITION. The key scheduler and the decorrelation drop (41_ksa.md rules R130 to R135). -/

namespace Sys2Proof.Machine

/-- One iteration `i` of the scheduling loop on (j, T) (R131):
`j <- j + T[i] + KeyRead(i mod KEYLEN); swap(T, i, j)`. -/
def scheduleStep (ram : Table) (keylen : Nat) (i : Byte) (jt : Byte × Table) : Byte × Table :=
  match jt with
  | (j, t) =>
    let j' := j + tableGet t i + keyByte ram keylen i
    (j', tableSwap t i j')

/-- (j, T) after the first `n` iterations of the scheduling loop, from `j = 0` (R131). -/
def scheduleSteps (ram : Table) (keylen : Nat) (t : Table) : Nat → Byte × Table
  | 0 => (0, t)
  | n + 1 => scheduleStep ram keylen (BitVec.ofNat 8 n) (scheduleSteps ram keylen t n)

/-- KSA phase 1: all 256 iterations; j is discarded (R131). -/
def schedule (ram : Table) (keylen : Nat) (t : Table) : Table := (scheduleSteps ram keylen t 256).2

/-- KSA phase 2, the drop: 256 PRGA steps from the cursors (0, 0), their output discarded
(R133, R135). -/
def drop256 (t : Table) : Generator := prgaSteps ⟨t, 0, 0⟩ 256

/-- KSA(T, key): the scheduling, then the drop (R130). -/
def ksa (ram : Table) (keylen : Nat) (t : Table) : Generator := drop256 (schedule ram keylen t)

end Sys2Proof.Machine
end

