-- ==== Sys2Proof/Machine/Lifecycle.lean ====
section
/-! DEFINITION. The lifecycle commands INIT, INIT_SEED and DISPOSE
(44_lifecycle.md rules R190 to R197). -/

namespace Sys2Proof.Machine

/-- The check of ValidateConstruction that both constructors make: the key is not empty (R191). -/
def State.validateKey (s : State) : Option ErrCode :=
  if s.regs.keylen = 0 then some .invalidArgument else none

/-- The check of ValidateConstruction that INIT alone makes: the nonce is exactly 4 bytes (R191). -/
def State.validateNonceLen (s : State) : Option ErrCode :=
  if s.regs.nonceLen = 4 then none else some .invalidArgument

/-- The generator a construction builds from one nonce and the key: the LCR, then the KSA
(R117, R134). -/
def State.keyedGenerator (s : State) (n : Nonce) : Generator :=
  ksa s.keyRam s.regs.keylen.toNat (lcr s.params n)

/-- Construct(nonce) (R192): S1 from the nonce, S2 from the derived nonce (R117), READY, RESULT 0,
ERR NONE. -/
def State.construct (s : State) (n : Nonce) : State :=
  ((s.setGenerators (s.keyedGenerator n) (s.keyedGenerator (deriveNonce2 n))).setLState
    .ready).succeed 0

/-- INIT (R193). -/
def execInit (s : State) : Host.Outcome State Fault Refusal :=
  .next (s.unlessError (s.validateKey.or s.validateNonceLen)
    (s.construct (nonceOfWord s.regs.nonce)))

/-- INIT_SEED (R194): the nonce is the little-endian bytes of the seed word NONCE. -/
def execInitSeed (s : State) : Host.Outcome State Fault Refusal :=
  .next (s.unlessError s.validateKey (s.construct (nonceOfWord s.regs.nonce)))

/-- DISPOSE (R196): S1, S2, the cursors and KEY RAM become zero in every lifecycle state. -/
def execDispose (s : State) : Host.Outcome State Fault Refusal :=
  .next (((s.setGenerators Generator.zero Generator.zero).clearKey.setLState .disposed).succeed 0)

end Sys2Proof.Machine
end

