-- ==== Sys2Proof/Machine/Transform.lean ====
section
/-! DEFINITION. The XOR transform datapath and the commands TRANSFORM and TRANSFORM_FINAL
(43_transform.md rules R170 to R177; 60_exceptions.md rule R212). -/

namespace Sys2Proof.Machine

/-- CheckLifecycle (R212): READY is required. -/
def State.checkLifecycle (s : State) : Option ErrCode :=
  match s.lstate with
  | .disposed => some .disposed
  | .uninitialized => some .notReady
  | .ready => none

/-- ValidateTransform (R170), its checks in the rule's order. -/
def State.validateTransform (s : State) : Option ErrCode :=
  if s.inPresent = false ∨ s.outPresent = false then some .invalidArgument
  else if s.inBuffer.fits s.params.dmemSize = false ∨
      s.outBuffer.fits s.params.dmemSize = false then some .invalidArgument
  else if s.inBuffer.holds s.inOffset s.countOf = false ∨
      s.outBuffer.holds s.outOffset s.countOf = false then some .outOfRange
  else none

/-- ValidateTransformFinal (R171), its checks in the rule's order. OUT_LEN, OUT_OFF and
ARGF.OUT_PRESENT are not read. -/
def State.validateTransformFinal (s : State) : Option ErrCode :=
  if s.inPresent = false then some .invalidArgument
  else if s.inBuffer.fits s.params.dmemSize = false then some .invalidArgument
  else if s.freshBuffer.fits s.params.dmemSize = false then some .invalidArgument
  else if s.inBuffer.holds s.inOffset s.countOf = false then some .outOfRange
  else none

/-- One position of the datapath loop (R173): read the input byte at `ia`, step the generators for
the combined byte, write the output byte at `oa`. -/
def xorPosition (ia oa : Nat) (s : State) : State :=
  s.stepGenerators.memWrite oa (s.memRead ia ^^^ s.combinedByte)

/-- XorStream (R173): the first `n` positions, in ascending order, onto the buffer at `ob` with
offset `oo`. -/
def xorStream (ob oo : Nat) (s : State) : Nat → State
  | 0 => s
  | n + 1 => xorPosition (s.inAddr n) (outAddr ob oo n) (xorStream ob oo s n)

/-- TRANSFORM (R174). -/
def execTransform (s : State) : Host.Outcome State Fault Refusal :=
  .next (s.unlessError (s.checkLifecycle.or s.validateTransform)
    ((xorStream s.outBuffer.base s.outOffset s s.countOf).succeed s.regs.count))

/-- TRANSFORM_FINAL (R176): the output is the fresh buffer at OUT_BASE, with offset 0. -/
def execTransformFinal (s : State) : Host.Outcome State Fault Refusal :=
  .next (s.unlessError (s.checkLifecycle.or s.validateTransformFinal)
    ((xorStream s.freshBuffer.base 0 s s.countOf).succeed s.regs.count))

end Sys2Proof.Machine
end

