-- ==== Sys2Proof/Machine/Dispatch.lean ====
section
/-! DEFINITION. Which meaning each command has: one arm for each constructor of `Instr`. -/

namespace Sys2Proof.Machine

def exec (i : Instr) (s : State) : Host.Outcome State Fault Refusal :=
  match i with
  | .init => Sys2Proof.Machine.execInit s
  | .initSeed => Sys2Proof.Machine.execInitSeed s
  | .transform => Sys2Proof.Machine.execTransform s
  | .transformFinal => Sys2Proof.Machine.execTransformFinal s
  | .dispose => Sys2Proof.Machine.execDispose s

end Sys2Proof.Machine
end

