-- ==== Sys2Proof/Machine/Complete.lean ====
section
/-! DEFINITION. The ENGINE's only step, the completion of the accepted command, and reset
(70_reset_and_hazards.md rules R240, R241, R244, R245). -/

namespace Sys2Proof.Machine

/-- What the word in CMDLATCH does before BUSY is cleared (R245): its command, or ILLEGAL_COMMAND. -/
def runWord (s : State) : Host.Outcome State Fault Refusal :=
  match decode s.cmdLatch with
  | .command i => exec i s
  | .illegal _ => .next (s.raiseError .illegalCommand)

/-- Command completion, one atomic transition: the case of R245, then `BUSY <- 0`. -/
def completeCommand (s : State) : Host.Outcome State Fault Refusal :=
  onNext State.clearBusy (runWord s)

/-- Reset (R240): every state element takes its reset value, with the reset's draw in DMEM. Its
configuration, the inputs still to come and the replies already on the bus are not the block's state.
The accesses held when it is asserted are not performed; where the platform still completes them,
they are answered as R241 says. -/
def State.resetBlock (s : State) (draw : List Byte) (answersHeld : Bool) (held : List Access)
    (rest : List Input) : State :=
  let r : State := { State.afterReset s.params draw with inputs := rest, replies := s.replies }
  if answersHeld then held.foldl State.cancel r else r

/-- A command word is in CMDLATCH with BUSY = 1 and the ENGINE has the next turn, as a host's CMD write
leaves the block (R34, R244): the block fetches no instructions (R23). -/
def State.placeCommand (s : State) (w : Word) : State :=
  (s.acceptCommand w).setInputs (.engine :: s.inputs)

end Sys2Proof.Machine
end

