-- ==== Sys2Proof/Machine/Schedule.lean ====
section
/-! DEFINITION. Which agent moves next (20_memory.md rules R70, R73, R74; 70_reset_and_hazards.md rules
R241, R244 to R246), read from the plain data of the state: BUSY and the inputs still to come. -/

namespace Sys2Proof.Machine

/-- The next step. Each but `idle` carries the inputs that remain after it. -/
inductive Move where
  /-- Nothing happens: the block is idle and keeps all state (60_exceptions.md R224). -/
  | idle
  /-- An ENGINE turn with no command running. -/
  | skip (rest : List Input)
  /-- This access is performed. -/
  | perform (a : Access) (rest : List Input)
  /-- The running command completes. -/
  | complete (rest : List Input)
  /-- Reset, cancelling the accesses held before it. -/
  | reset (draw : List Byte) (answersHeld : Bool) (held : List Access) (rest : List Input)
  deriving DecidableEq, Repr

/-- The next step while BUSY = 0: the first input is taken. -/
def idleMove : List Input → Move
  | [] => .idle
  | .access a :: rest => .perform a rest
  | .engine :: rest => .skip rest
  | .reset draw answers :: rest => .reset draw answers [] rest

/-- The next step while BUSY = 1 once the accesses at the front are held (R70): the command completes,
unless reset is asserted before it does (R241). With nothing but held accesses to come, it completes,
the model's form of R246's "eventually" (DESIGN CHOICE, notes/assumptions/4.md). `held` are the
accesses passed over, in order. -/
def heldMove (held : List Access) : List Input → Move
  | [] => .complete (held.map .access)
  | .access a :: rest => heldMove (held ++ [a]) rest
  | .engine :: rest => .complete (held.map .access ++ rest)
  | .reset draw answers :: rest => .reset draw answers held rest

/-- The next step while BUSY = 1: a STATUS read at the front is performed at once; every other access
is held (R70). A STATUS read behind a held access waits with it (DESIGN CHOICE,
notes/assumptions/4.md). An access at an address that is not the block's is no host access of R70, and
the spec says nothing of it: it is passed over as a held access is, with the accesses behind it, and
does nothing once the command has completed (DESIGN CHOICE, notes/assumptions/8.md). -/
def busyMove (base : Nat) (inputs : List Input) : Move :=
  match inputs with
  | [] => .complete []
  | .access a :: rest => if isStatusRead base a then .perform a rest else heldMove [a] rest
  | .engine :: rest => .complete rest
  | .reset draw answers :: rest => .reset draw answers [] rest

/-- The next step of the block. -/
def State.nextMove (s : State) : Move :=
  if s.busy then busyMove s.params.blockBase s.inputs else idleMove s.inputs

end Sys2Proof.Machine
end

