-- ==== Sys2Proof/Machine/Step.lean ====
section
/-! DEFINITION. One step of the block: one host access, the completion of one command, or a reset
(00_scope.md rule R5). -/

namespace Sys2Proof.Machine

/-- Take this step. -/
def takeMove (s : State) : Move → Host.Outcome State Fault Refusal
  | .idle => .next s
  | .skip rest => .next (s.setInputs rest)
  | .perform a rest => .next ((s.setInputs rest).perform a)
  | .complete rest => completeCommand (s.setInputs rest)
  | .reset draw answers held rest => .next (s.resetBlock draw answers held rest)

/-- One step of the block. -/
def step (s : State) : Host.Outcome State Fault Refusal := takeMove s s.nextMove

/-- `s` as a host's CMD write of this word leaves it, with the ENGINE's turn next, so that the next
step runs the word (notes/assumptions/10.md). -/
def State.withFetchWord (s : State) (nbits w : Nat) : State :=
  s.placeCommand (BitVec.ofNat 32 (w % 2 ^ nbits))

end Sys2Proof.Machine
end

