-- ==== Sys2Proof/Machine/HostScript.lean ====
section
/-! DEFINITION. Host scripts (30_encoding.md rules R96, R97) as the inputs they are: one bus access for
each line, at BLOCK_BASE + off, and the pseudo-instructions with their expansions. The expected values
of a script (`-> v`) are what a claim says of `State.replies`. -/

namespace Sys2Proof.Machine

/-- `W32 off, v` (R96). -/
def w32 (p : Params) (off : Nat) (v : Word) : Input := .access (.write .word (p.blockBase + off) v)

/-- `W8 off, b` (R96). -/
def w8 (p : Params) (off : Nat) (b : Byte) : Input :=
  .access (.write .byte (p.blockBase + off) (b.setWidth 32))

/-- `R32 off` (R96). -/
def r32 (p : Params) (off : Nat) : Input := .access (.read .word (p.blockBase + off))

/-- `R8 off` (R96). -/
def r8 (p : Params) (off : Nat) : Input := .access (.read .byte (p.blockBase + off))

/-- The pseudo-instructions `INIT` to `DISPOSE`: `W32 0x000` of the command's word (R97). -/
def scriptCommand (p : Params) (i : Instr) : List Input := [w32 p 0x000 (encode i)]

/-- `WAIT` (R97) where the STATUS read finds BUSY = 1 `n` times before the command completes. -/
def scriptWait (p : Params) (n : Nat) : List Input :=
  List.replicate n (r32 p 0x004) ++ [.engine, r32 p 0x004]

/-- Byte writes of consecutive bytes from block offset `off`. -/
def scriptBytes (p : Params) (off : Nat) : List Byte → List Input
  | [] => []
  | b :: bs => w8 p off b :: scriptBytes p (off + 1) bs

/-- `SETKEY b0 b1 ...` (R97): at most 256 key bytes are written, then KEYLEN. -/
def scriptSetKey (p : Params) (key : List Byte) : List Input :=
  scriptBytes p 0x100 (key.take 256) ++ [w32 p 0x00C (BitVec.ofNat 32 key.length)]

/-- `SETNONCE n0 n1 n2 n3` (R97). -/
def scriptSetNonce (p : Params) (n0 n1 n2 n3 : Byte) : List Input :=
  [w32 p 0x010 (wordOfLanes [n0, n1, n2, n3]), w32 p 0x014 4]

/-- `SETSEED s` (R97). -/
def scriptSetSeed (p : Params) (seed : Word) : List Input := [w32 p 0x010 seed]

/-- `LOAD a, b0 ...` (R97). -/
def scriptLoad (p : Params) (a : Nat) (bytes : List Byte) : List Input :=
  scriptBytes p (0x1000 + a) bytes

/-- `ARGS ip, op` (R97). -/
def scriptArgs (p : Params) (ip op : Bool) : List Input :=
  [w32 p 0x018 ((BitVec.ofBool op ++ BitVec.ofBool ip).setWidth 32)]

/-- `INBUF base, len` (R97). -/
def scriptInBuf (p : Params) (base len : Word) : List Input := [w32 p 0x01C base, w32 p 0x020 len]

/-- `OUTBUF base, len` (R97). -/
def scriptOutBuf (p : Params) (base len : Word) : List Input := [w32 p 0x02C base, w32 p 0x030 len]

/-- `XFER ioff, count, ooff` (R97). -/
def scriptXfer (p : Params) (ioff count ooff : Word) : List Input :=
  [w32 p 0x024 ioff, w32 p 0x028 count, w32 p 0x034 ooff]

/-- `CHECK` (R97): STATUS, then RESULT. -/
def scriptCheck (p : Params) : List Input := [r32 p 0x004, r32 p 0x008]

end Sys2Proof.Machine
end

