-- ==== Sys2Proof/Safety.lean ====
section
/-! DEFINITION. What claims about the block are stated in: the permutation law (10_state.md rule R25),
the invariant of the block's state, and the end of a host script run (70_reset_and_hazards.md rule
R247). -/

namespace Sys2Proof.Machine

/-- The table is a permutation of the values 0..255: "no duplicates, no omissions" (R25). -/
abbrev IsPermutation (t : Table) : Prop := t.toList.Nodup ∧ ∀ b : Byte, b ∈ t.toList

/-- The table law of R25: permutations while READY, and all zero, with zero cursors (R22, R196),
otherwise. -/
def State.TablesInv (s : State) : Prop :=
  (s.lstate = .ready → IsPermutation s.gen1.table ∧ IsPermutation s.gen2.table) ∧
  (s.lstate ≠ .ready → s.gen1 = Generator.zero ∧ s.gen2 = Generator.zero)

/-- DMEM is in canonical form and lists only offsets below DMEM_SIZE (R29). -/
def State.MemInv (s : State) : Prop :=
  Memory.wf s.dmemInit s.dmem ∧ Memory.inside s.params.dmemSize s.dmem

/-- RESULT is 0 after an error, and outside READY (R36, R214, R196). -/
def State.ResultInv (s : State) : Prop :=
  (s.err ≠ .none → s.result = 0) ∧ (s.lstate ≠ .ready → s.result = 0)

/-- The invariant of the block's state. -/
def State.Inv (s : State) : Prop := s.TablesInv ∧ s.MemInv ∧ s.ResultInv

/-- TRANSFORM_FINAL, or TRANSFORM: the two commands of the datapath, for claims that hold of both. -/
def transformInstr (final : Bool) : Instr := if final then .transformFinal else .transform

/-- The DMEM byte that position `k` of that command stores to: `oa(k)` of 43_transform.md rule R172,
with the same functions its meaning uses. -/
def State.storeAddr (s : State) (final : Bool) (k : Nat) : Nat :=
  if final then outAddr s.freshBuffer.base 0 k else outAddr s.outBuffer.base s.outOffset k

/-- The combined byte of position `k` from these two generators (42_prga_combiner.md rule R155): each
table has then been stepped `k + 1` times. -/
def keystream (g1 g2 : Generator) (k : Nat) : Byte :=
  combine (ksByte (prgaSteps g1 (k + 1))) (ksByte (prgaSteps g2 (k + 1)))

/-- No position of that command reads a byte that another position stores to: the input and output
regions are disjoint or identical (93_implementation_defined.md U14). -/
def State.noOverlap (s : State) (final : Bool) : Prop :=
  ∀ i j, i < s.regs.count.toNat → j < s.regs.count.toNat → i ≠ j → s.inAddr i ≠ s.storeAddr final j

/-- The run of a host script has ended: "every access of the script has been performed, and
BUSY = 0" (R247). R247 does not speak of a reset that falls in a run. The model's choice: the run has
not ended while a reset is still to come, and an access that a reset cancelled counts as dealt with
(DESIGN CHOICE, notes/assumptions/12.md). -/
def State.scriptEnded (s : State) : Prop := s.inputs = [] ∧ s.busy = false

/-- `k` steps of the block, stopping at the first stop. -/
def runSteps : Nat → State → Host.Outcome State Fault Refusal := Sys2Proof.core.run

end Sys2Proof.Machine
end

