-- ==== Sys2Proof/Certificates/Slice0/Obligations.lean ====
section
/-! DEFINITION. The statements about the block, each formalising numbered rules of spec/. They are
listed with their rules in OBLIGATIONS.json. -/

open Sys2Proof Sys2Proof.Machine

/-! ### Commands: decoding and sequencing -/

/-- The words of R91, written out, decode to their commands, and the words of the vectors V-ENC-2 to
V-ENC-4 are ILLEGAL. -/
def Obligations.WrittenCommandWordsDecode : Prop :=
  decode 0x00000001 = .command .init ∧ decode 0x00000002 = .command .initSeed ∧
  decode 0x00000003 = .command .transform ∧ decode 0x00000004 = .command .transformFinal ∧
  decode 0x00000005 = .command .dispose ∧
  decode 0x00000000 = .illegal .reservedOpcode ∧ decode 0x00000006 = .illegal .reservedOpcode ∧
  decode 0x000000FF = .illegal .reservedOpcode ∧ decode 0x00000101 = .illegal .mbzNotZero ∧
  decode 0x80000003 = .illegal .mbzNotZero ∧ decode 0xFFFFFFFF = .illegal .mbzNotZero

/-- R95: a word decodes to a command exactly when it equals that command's word of R91, under the
whole mask, and to ILLEGAL when it equals none of the five. -/
def Obligations.EveryWordDecodesByExactMatch : Prop :=
  ∀ w : Word,
    (decode w = .command .init ↔ w = 0x00000001) ∧
    (decode w = .command .initSeed ↔ w = 0x00000002) ∧
    (decode w = .command .transform ↔ w = 0x00000003) ∧
    (decode w = .command .transformFinal ↔ w = 0x00000004) ∧
    (decode w = .command .dispose ↔ w = 0x00000005) ∧
    ((∃ why, decode w = .illegal why) ↔
      w ≠ 0x00000001 ∧ w ≠ 0x00000002 ∧ w ≠ 0x00000003 ∧ w ≠ 0x00000004 ∧ w ≠ 0x00000005)

/-- Decoding the encoding of a well-formed command gives it back, and its MBZ field is zero (R90,
R91). -/
def Obligations.DecodingInvertsEncoding : Prop :=
  ∀ i : Instr, i.wellFormed = true →
    decode (encode i) = .command i ∧ (fieldsOf (encode i)).wellFormed = true

/-- R93 and R94: a word with MBZ not zero, or with MBZ zero and OPCODE 0x00 or 0x06 to 0xFF, completes
with ERR = ILLEGAL_COMMAND, RESULT = 0 and BUSY = 0, and changes nothing else. -/
def Obligations.IllegalWordCompletesWithIllegalCommand : Prop :=
  ∀ s : State,
    (s.cmdLatch.extractLsb' 8 24 ≠ 0 ∨
      (s.cmdLatch.extractLsb' 8 24 = 0 ∧
        (s.cmdLatch.extractLsb' 0 8 = 0 ∨ 6 ≤ (s.cmdLatch.extractLsb' 0 8).toNat))) →
    completeCommand s = .next { s with err := .illegalCommand, result := 0, busy := false }

/-- R245, and the model's own placing of the ENGINE's turn (notes/assumptions/4.md): with BUSY = 1 and
the ENGINE to move, a step is the meaning of the decoded command, then BUSY <- 0; and the next step
after `withFetchWord` runs exactly the command of that word. -/
def Obligations.CompletionStepRunsTheDecodedCommand : Prop :=
  (∀ (s : State) (i : Instr) (rest : List Input), s.busy = true → decode s.cmdLatch = .command i →
    (s.inputs = .engine :: rest ∨ (s.inputs = [] ∧ rest = [])) →
    step s = onNext State.clearBusy (exec i (s.setInputs rest))) ∧
  (∀ (s : State) (i : Instr) (w : Nat), decode (BitVec.ofNat 32 w) = .command i →
    step (s.withFetchWord 32 w) =
      onNext State.clearBusy (exec i { s with cmdLatch := BitVec.ofNat 32 w, busy := true }))

/-- The block never stops: no command, access, reset or illegal word is a fault or a refusal (R13,
R210, R218). -/
def Obligations.EveryStepAnswersANextState : Prop := ∀ s : State, ∃ t, step s = .next t

/-- R70, R73, R246: while BUSY = 1, a 32-bit aligned read of STATUS at the front of the inputs is
performed at once and returns BUSY = 1 with the LSTATE and ERR from before the command; any
other access of the block is held until the command has completed, and is then performed, unchanged.
Three parts are the model's choice, of which R70 says nothing: that a STATUS read behind a held access
waits with it, and that the command completes when no ENGINE turn is left to come (DESIGN CHOICE,
notes/assumptions/4.md); and, since `a` and `held` may be accesses at addresses that are not the
block's, that such an access waits as a held one does, with the accesses behind it, STATUS reads among
them, and then does nothing (DESIGN CHOICE, notes/assumptions/8.md). -/
def Obligations.BusyHoldsEveryAccessButAStatusRead : Prop :=
  (∀ (s : State) (rest : List Input), s.busy = true →
    s.inputs = .access (.read .word (s.params.blockBase + 0x004)) :: rest →
    step s = .next { s with inputs := rest, replies := s.replies ++ [s.statusWord] } ∧
    s.statusWord[0] = true ∧ s.statusWord.extractLsb' 1 2 = s.lstate.code ∧
    s.statusWord.extractLsb' 4 4 = s.err.code) ∧
  (∀ (s : State) (a : Access) (held : List Access) (rest after : List Input), s.busy = true →
    a ≠ .read .word (s.params.blockBase + 0x004) →
    s.inputs = .access a :: (held.map .access ++ rest) →
    (rest = .engine :: after ∨ (rest = [] ∧ after = [])) →
    ∃ t, step s = .next t ∧
      completeCommand (s.setInputs (.access a :: (held.map .access ++ after))) = .next t ∧
      t.busy = false ∧ step t = .next ((t.setInputs (held.map .access ++ after)).perform a))

/-- While BUSY = 0 the first access is performed in one step: a read returns what the block offset
reads as, a write has the effect of that offset (R73, R74). -/
def Obligations.IdleAccessIsPerformedInOneStep : Prop :=
  ∀ (s : State) (w : Width) (off : Nat) (v : Word) (rest : List Input), s.busy = false →
    off < 2 ^ 32 →
    (s.inputs = .access (.read w (s.params.blockBase + off)) :: rest →
      step s = .next { s with inputs := rest, replies := s.replies ++ [s.busRead w off] }) ∧
    (s.inputs = .access (.write w (s.params.blockBase + off) v) :: rest →
      step s = .next ((s.setInputs rest).busWrite w off v))

/-- R244: a 32-bit aligned write of w to CMD performed while BUSY = 0 does
`CMDLATCH <- w; BUSY <- 1` and nothing else; no word is accepted while another runs. -/
def Obligations.IdleCmdWriteAcceptsTheWord : Prop :=
  (∀ (s : State) (w : Word) (rest : List Input), s.busy = false →
    s.inputs = .access (.write .word (s.params.blockBase + 0x000) w) :: rest →
    step s = .next { s with cmdLatch := w, busy := true, inputs := rest }) ∧
  ∀ s t : State, s.busy = true → step s = .next t → t.busy = true → t.cmdLatch = s.cmdLatch

/-- R71 and R74: from acceptance to completion nothing of the block changes. A step while BUSY = 1 that
is neither the completion nor a reset is a STATUS read, which only answers. -/
def Obligations.NothingChangesWhileACommandRuns : Prop :=
  ∀ s t : State, s.busy = true → step s = .next t → (∀ rest, s.nextMove ≠ .complete rest) →
    (∀ draw ans held rest, s.nextMove ≠ .reset draw ans held rest) →
    t = { s with inputs := t.inputs, replies := s.replies ++ [s.statusWord] }

/-- An accepted command completes (R246), or is abandoned by reset (R241), after finitely many steps.
R246 gives completion no upper bound in time and assumes only that it is eventually taken. The bound,
one step more than there are inputs to come, counts inputs, and that the command completes when
nothing but held accesses is left to come is the model's form of that assumption (DESIGN CHOICE,
notes/assumptions/4.md). -/
def Obligations.AcceptedCommandCompletes : Prop :=
  ∀ s : State, s.busy = true →
    ∃ k t, k ≤ s.inputs.length + 1 ∧ runSteps k s = .next t ∧ t.busy = false

/-- Every list of inputs comes to the end of a run: all its accesses dealt with and BUSY = 0 (R247,
R246). The bound counts inputs (notes/assumptions/4.md). R247 does not speak of a run with a reset in
it; that such a run has not ended before the reset, and that an access the reset cancelled counts as
dealt with, is the model's choice (DESIGN CHOICE, notes/assumptions/12.md). -/
def Obligations.EveryHostScriptEnds : Prop :=
  ∀ s : State, ∃ k t, k ≤ 2 * s.inputs.length + 1 ∧ runSteps k s = .next t ∧ t.scriptEnded

/-- R30: the acceptance of a command word sets BUSY and nothing else does; completion and reset clear
it and nothing else does. -/
def Obligations.BusyIsSetByAcceptanceAndClearedByCompletionOrReset : Prop :=
  ∀ s t : State, step s = .next t →
    (∀ v rest, s.busy = false →
      s.nextMove = .perform (.write .word (s.params.blockBase + 0x000) v) rest →
      t.busy = true ∧ t.cmdLatch = v) ∧
    (s.busy = false → t.busy = true →
      ∃ v rest, s.nextMove = .perform (.write .word (s.params.blockBase + 0x000) v) rest ∧
        t.cmdLatch = v) ∧
    (s.busy = true → t.busy = false →
      (∃ rest, s.nextMove = .complete rest) ∨
      ∃ draw ans held rest, s.nextMove = .reset draw ans held rest) ∧
    ((∃ rest, s.nextMove = .complete rest) → t.busy = false) ∧
    ((∃ draw ans held rest, s.nextMove = .reset draw ans held rest) → t.busy = false)

/-- R215: ERR and RESULT keep their values until the next command completes or reset occurs; so does
LSTATE (R27), and so do the tables and cursors (R22, R24). -/
def Obligations.OutcomeKeepsUntilCompletionOrReset : Prop :=
  ∀ s t : State, step s = .next t → (∀ rest, s.nextMove ≠ .complete rest) →
    (∀ draw ans held rest, s.nextMove ≠ .reset draw ans held rest) →
    t.err = s.err ∧ t.result = s.result ∧ t.lstate = s.lstate ∧ t.gen1 = s.gen1 ∧ t.gen2 = s.gen2

/-- Reset is the only event that enters UNINITIALIZED (R242, R190). -/
def Obligations.OnlyResetEntersUninitialized : Prop :=
  ∀ s t : State, step s = .next t → s.lstate ≠ .uninitialized → t.lstate = .uninitialized →
    ∃ draw ans held rest, s.nextMove = .reset draw ans held rest

/-- The tables and cursors of a READY block change only when a command that succeeds completes, or
by reset (R22, R24, R214). -/
def Obligations.TablesAndCursorsChangeOnlyByASuccessOrReset : Prop :=
  ∀ s t : State, step s = .next t → (t.gen1 ≠ s.gen1 ∨ t.gen2 ≠ s.gen2) →
    (∃ rest i, s.nextMove = .complete rest ∧ decode s.cmdLatch = .command i ∧ t.err = .none) ∨
    ∃ draw ans held rest, s.nextMove = .reset draw ans held rest

/-! ### Lifecycle commands -/

/-- INIT (R191, R192, R193): with an empty key or a nonce that is not 4 bytes it completes with
INVALID_ARGUMENT and nothing else changes; otherwise it builds S1 from the little-endian nonce bytes
and S2 from the derived nonce, and LSTATE is READY, RESULT 0 and ERR NONE. -/
def Obligations.InitValidatesThenConstructs : Prop :=
  ∀ s : State,
    ((s.regs.keylen = 0 ∨ s.regs.nonceLen ≠ 4) →
      exec .init s = .next { s with err := .invalidArgument, result := 0 }) ∧
    (s.regs.keylen ≠ 0 → s.regs.nonceLen = 4 →
      exec .init s = .next { s with
        gen1 := ksa s.keyRam s.regs.keylen.toNat (lcr s.params (nonceOfWord s.regs.nonce))
        gen2 := ksa s.keyRam s.regs.keylen.toNat
          (lcr s.params (deriveNonce2 (nonceOfWord s.regs.nonce)))
        lstate := .ready
        result := 0
        err := .none })

/-- INIT_SEED (R194): with an empty key it completes with INVALID_ARGUMENT; otherwise it builds the
tables from the little-endian bytes of the seed, whatever NONCE_LEN is, and that is exactly what INIT
does with NONCE_LEN = 4. -/
def Obligations.InitSeedIsInitOnTheSeedBytes : Prop :=
  ∀ s : State,
    (s.regs.keylen = 0 → exec .initSeed s = .next { s with err := .invalidArgument, result := 0 }) ∧
    (s.regs.keylen ≠ 0 →
      exec .initSeed s = .next { s with
        gen1 := ksa s.keyRam s.regs.keylen.toNat (lcr s.params (nonceOfWord s.regs.nonce))
        gen2 := ksa s.keyRam s.regs.keylen.toNat
          (lcr s.params (deriveNonce2 (nonceOfWord s.regs.nonce)))
        lstate := .ready
        result := 0
        err := .none }) ∧
    (s.regs.nonceLen = 4 → exec .initSeed s = exec .init s)

/-- After a successful INIT or INIT_SEED both x cursors are 0 and both tables are permutations (R133,
R25). -/
def Obligations.ConstructionEndsWithZeroXAndPermutations : Prop :=
  ∀ (s t : State) (i : Instr), (i = .init ∨ i = .initSeed) → exec i s = .next t → t.err = .none →
    t.gen1.x = 0 ∧ t.gen2.x = 0 ∧ IsPermutation t.gen1.table ∧ IsPermutation t.gen2.table

/-- DISPOSE (R196): in every lifecycle state it zeroes every entry of S1, S2 and KEY RAM and the four
cursors, LSTATE is DISPOSED, RESULT 0, ERR NONE; DMEM and the host-written registers are kept; and a
second DISPOSE leaves the same state. Its word is 0x00000005. -/
def Obligations.DisposeClearsTablesCursorsAndKey : Prop :=
  encode .dispose = 0x00000005 ∧
  ∀ s : State, ∃ t, exec .dispose s = .next t ∧
    (∀ i, tableGet t.gen1.table i = 0 ∧ tableGet t.gen2.table i = 0 ∧ tableGet t.keyRam i = 0) ∧
    t.gen1.x = 0 ∧ t.gen1.y = 0 ∧ t.gen2.x = 0 ∧ t.gen2.y = 0 ∧
    t.lstate = .disposed ∧ t.result = 0 ∧ t.err = .none ∧
    t = { s with gen1 := t.gen1, gen2 := t.gen2, keyRam := t.keyRam, lstate := t.lstate,
                 result := t.result, err := t.err } ∧
    exec .dispose t = .next t

/-- R190: the transitions of LSTATE, row by row. -/
def Obligations.LifecycleTransitionsFollowTheTable : Prop :=
  (∀ (s t : State) (i : Instr), (i = .init ∨ i = .initSeed) → exec i s = .next t →
    (t.err = .none → t.lstate = .ready) ∧ (t.err ≠ .none → t.lstate = s.lstate)) ∧
  (∀ s t : State, exec .dispose s = .next t → t.lstate = .disposed) ∧
  (∀ (s t : State) (final : Bool), exec (transformInstr final) s = .next t →
    t.lstate = s.lstate ∧ (s.lstate = .uninitialized → t.err = .notReady) ∧
    (s.lstate = .disposed → t.err = .disposed)) ∧
  (∀ (s t : State) (why : IllegalWord), decode s.cmdLatch = .illegal why →
    completeCommand s = .next t → t.lstate = s.lstate) ∧
  (∀ (s t : State) (draw : List Byte) (ans : Bool) (held : List Access) (rest : List Input),
    s.nextMove = .reset draw ans held rest → step s = .next t → t.lstate = .uninitialized)

/-- R214: a command that ends in an error changes ERR, RESULT and, at completion, BUSY, and nothing
else. -/
def Obligations.ErrorChangesOnlyErrResultAndBusy : Prop :=
  ∀ s t : State, completeCommand s = .next t → t.err ≠ .none →
    t = { s with err := t.err, result := 0, busy := false }

/-- Which commands raise which code (R211), and when RESULT is not 0 (R36): only a transform that
succeeded, and then it is COUNT. -/
def Obligations.ErrorCodesAndResultComeFromTheListedCommands : Prop :=
  ∀ (s t : State) (i : Instr), exec i s = .next t →
    (t.err = .invalidArgument → i ≠ .dispose) ∧
    (t.err = .outOfRange → i = .transform ∨ i = .transformFinal) ∧
    (t.err = .notReady → (i = .transform ∨ i = .transformFinal) ∧ s.lstate = .uninitialized) ∧
    (t.err = .disposed → (i = .transform ∨ i = .transformFinal) ∧ s.lstate = .disposed) ∧
    t.err ≠ .illegalCommand ∧
    (t.err = .none → (i = .transform ∨ i = .transformFinal) → t.result = s.regs.count) ∧
    ((i ≠ .transform ∧ i ≠ .transformFinal) ∨ t.err ≠ .none → t.result = 0)

/-- The frame of the commands: none writes a host-written register (R37 to R40), CMDLATCH, the
parameters, or what the outside world is about to do; only DISPOSE writes KEY RAM (R28, R192); and a
command that is not a transform leaves every DMEM byte as it was (R29). BUSY is left to completion
(R245). -/
def Obligations.CommandsKeepRegistersKeyAndDmem : Prop :=
  ∀ (s t : State) (i : Instr), exec i s = .next t →
    t.regs = s.regs ∧ t.cmdLatch = s.cmdLatch ∧ t.busy = s.busy ∧ t.params = s.params ∧
    t.inputs = s.inputs ∧ t.replies = s.replies ∧ t.dmemInit = s.dmemInit ∧
    (i ≠ .dispose → t.keyRam = s.keyRam) ∧
    (i ≠ .transform → i ≠ .transformFinal → ∀ a, t.memRead a = s.memRead a)

/-! ### Transforms -/

/-- TRANSFORM's errors in priority order (R212, R170, R213): the lifecycle, then an absent buffer, then
a descriptor outside DMEM, then a slice outside its buffer. Every sum is a sum of natural numbers. -/
def Obligations.TransformErrorsInPriorityOrder : Prop :=
  ∀ s : State,
    let bad := fun code : ErrCode =>
      exec .transform s = .next { s with err := code, result := 0 }
    (s.lstate = .disposed → bad .disposed) ∧
    (s.lstate = .uninitialized → bad .notReady) ∧
    (s.lstate = .ready → (s.regs.argf[0] = false ∨ s.regs.argf[1] = false) →
      bad .invalidArgument) ∧
    (s.lstate = .ready →
      (s.regs.inBase.toNat + s.regs.inLen.toNat > s.params.dmemSize ∨
        s.regs.outBase.toNat + s.regs.outLen.toNat > s.params.dmemSize) →
      bad .invalidArgument) ∧
    (s.lstate = .ready → s.regs.argf[0] = true → s.regs.argf[1] = true →
      s.regs.inBase.toNat + s.regs.inLen.toNat ≤ s.params.dmemSize →
      s.regs.outBase.toNat + s.regs.outLen.toNat ≤ s.params.dmemSize →
      (s.regs.inOff.toNat + s.regs.count.toNat > s.regs.inLen.toNat ∨
        s.regs.outOff.toNat + s.regs.count.toNat > s.regs.outLen.toNat) →
      bad .outOfRange)

/-- TRANSFORM_FINAL's errors in priority order (R212, R171, R213). OUT_LEN, OUT_OFF and
ARGF.OUT_PRESENT are not read. -/
def Obligations.TransformFinalErrorsInPriorityOrder : Prop :=
  ∀ s : State,
    let bad := fun code : ErrCode =>
      exec .transformFinal s = .next { s with err := code, result := 0 }
    (s.lstate = .disposed → bad .disposed) ∧
    (s.lstate = .uninitialized → bad .notReady) ∧
    (s.lstate = .ready →
      (s.regs.argf[0] = false ∨
        s.regs.inBase.toNat + s.regs.inLen.toNat > s.params.dmemSize ∨
        s.regs.outBase.toNat + s.regs.count.toNat > s.params.dmemSize) →
      bad .invalidArgument) ∧
    (s.lstate = .ready → s.regs.argf[0] = true →
      s.regs.inBase.toNat + s.regs.inLen.toNat ≤ s.params.dmemSize →
      s.regs.outBase.toNat + s.regs.count.toNat ≤ s.params.dmemSize →
      s.regs.inOff.toNat + s.regs.count.toNat > s.regs.inLen.toNat →
      bad .outOfRange)

/-- TRANSFORM on valid operands (R172, R173, R174, R180): it answers a next state with RESULT = COUNT
and ERR = NONE; each table has been stepped COUNT times; output byte i is the combined byte of
position i XOR the input byte of position i, which is the byte an earlier position stored where the
regions overlap that way; every other DMEM byte and all other state is unchanged. -/
def Obligations.TransformXorsTheStream : Prop :=
  ∀ s : State, Memory.wf s.dmemInit s.dmem → s.lstate = .ready →
    s.regs.argf[0] = true → s.regs.argf[1] = true →
    s.regs.inBase.toNat + s.regs.inLen.toNat ≤ s.params.dmemSize →
    s.regs.outBase.toNat + s.regs.outLen.toNat ≤ s.params.dmemSize →
    s.regs.inOff.toNat + s.regs.count.toNat ≤ s.regs.inLen.toNat →
    s.regs.outOff.toNat + s.regs.count.toNat ≤ s.regs.outLen.toNat →
    let n := s.regs.count.toNat
    let ia := fun i => s.regs.inBase.toNat + s.regs.inOff.toNat + i
    let oa := fun i => s.regs.outBase.toNat + s.regs.outOff.toNat + i
    ∃ t, exec .transform s = .next t ∧ t.result = s.regs.count ∧ t.err = .none ∧
      t.gen1 = prgaSteps s.gen1 n ∧ t.gen2 = prgaSteps s.gen2 n ∧
      (∀ i, i < n → t.memRead (oa i) =
        (if oa 0 ≤ ia i ∧ ia i < oa i then t.memRead (ia i) else s.memRead (ia i)) ^^^
          combine (ksByte (prgaSteps s.gen1 (i + 1))) (ksByte (prgaSteps s.gen2 (i + 1)))) ∧
      (∀ a, (∀ i, i < n → a ≠ s.storeAddr false i) → t.memRead a = s.memRead a) ∧
      t = { s with gen1 := t.gen1, gen2 := t.gen2, dmem := t.dmem, result := t.result,
                   err := t.err }

/-- TRANSFORM_FINAL on valid operands (R172, R173, R176, R180), with the fresh buffer (OUT_BASE,
COUNT) in place of the output slice. -/
def Obligations.TransformFinalXorsTheStream : Prop :=
  ∀ s : State, Memory.wf s.dmemInit s.dmem → s.lstate = .ready →
    s.regs.argf[0] = true →
    s.regs.inBase.toNat + s.regs.inLen.toNat ≤ s.params.dmemSize →
    s.regs.outBase.toNat + s.regs.count.toNat ≤ s.params.dmemSize →
    s.regs.inOff.toNat + s.regs.count.toNat ≤ s.regs.inLen.toNat →
    let n := s.regs.count.toNat
    let ia := fun i => s.regs.inBase.toNat + s.regs.inOff.toNat + i
    let oa := fun i => s.regs.outBase.toNat + i
    ∃ t, exec .transformFinal s = .next t ∧ t.result = s.regs.count ∧ t.err = .none ∧
      t.gen1 = prgaSteps s.gen1 n ∧ t.gen2 = prgaSteps s.gen2 n ∧
      (∀ i, i < n → t.memRead (oa i) =
        (if oa 0 ≤ ia i ∧ ia i < oa i then t.memRead (ia i) else s.memRead (ia i)) ^^^
          combine (ksByte (prgaSteps s.gen1 (i + 1))) (ksByte (prgaSteps s.gen2 (i + 1)))) ∧
      (∀ a, (∀ i, i < n → a ≠ s.storeAddr true i) → t.memRead a = s.memRead a) ∧
      t = { s with gen1 := t.gen1, gen2 := t.gen2, dmem := t.dmem, result := t.result,
                   err := t.err }

/-- R177: a transform with COUNT = 0 that passes validation steps nothing and writes no DMEM byte;
RESULT is 0. -/
def Obligations.ZeroCountTransformStepsNothing : Prop :=
  ∀ (s t : State) (final : Bool), s.regs.count = 0 → exec (transformInstr final) s = .next t →
    t.err = .none → t = { s with err := .none, result := 0 }

/-- R151: n steps add n modulo 256 to x; after a successful INIT or INIT_SEED both x cursors are 0, and
a successful transform adds COUNT modulo 256 to both. -/
def Obligations.CursorXCountsPositions : Prop :=
  (∀ (g : Generator) (n : Nat), (prgaSteps g n).x.toNat = (g.x.toNat + n) % 256) ∧
  (∀ (s t : State) (i : Instr), (i = .init ∨ i = .initSeed) → exec i s = .next t → t.err = .none →
    t.gen1.x = 0 ∧ t.gen2.x = 0) ∧
  (∀ (s t : State) (final : Bool), exec (transformInstr final) s = .next t → t.err = .none →
    t.gen1.x.toNat = (s.gen1.x.toNat + s.regs.count.toNat) % 256 ∧
    t.gen2.x.toNat = (s.gen2.x.toNat + s.regs.count.toNat) % 256)

/-- The transform is its own inverse (R178, R173). If a second block starts from the same tables and cursors
and is given, as its input, the first one's output, its output is the first one's input and the two
end with the same tables and cursors, so that the next commands agree again. Each command may be
TRANSFORM or TRANSFORM_FINAL; neither reads bytes it has itself stored. -/
def Obligations.TransformIsItsOwnInverse : Prop :=
  ∀ (s t u v : State) (f g : Bool),
    Memory.wf s.dmemInit s.dmem → Memory.wf u.dmemInit u.dmem →
    exec (transformInstr f) s = .next t → t.err = .none →
    exec (transformInstr g) u = .next v → v.err = .none →
    u.gen1 = s.gen1 → u.gen2 = s.gen2 → u.regs.count = s.regs.count →
    s.noOverlap f → u.noOverlap g →
    (∀ i, i < s.regs.count.toNat → u.memRead (u.inAddr i) = t.memRead (s.storeAddr f i)) →
    (∀ i, i < s.regs.count.toNat → v.memRead (u.storeAddr g i) = s.memRead (s.inAddr i)) ∧
    v.gen1 = t.gen1 ∧ v.gen2 = t.gen2

/-- R178: encrypting and then decrypting gives the plaintext back. Two instances are constructed with the
same key bytes, nonce and parameter set, and both have then performed any commands of n positions in
all. One transforms its input; the other, given that output as its input, returns the first's input,
and both are again the same number of positions from their constructions. -/
def Obligations.DecryptingReturnsThePlaintext : Prop :=
  ∀ (s₀ s₁ s t u₀ u₁ u v : State) (i j : Instr) (f g : Bool) (n : Nat),
    (i = .init ∨ i = .initSeed) → (j = .init ∨ j = .initSeed) →
    exec i s₀ = .next s₁ → s₁.err = .none → exec j u₀ = .next u₁ → u₁.err = .none →
    (∀ k : Byte,
      keyByte s₀.keyRam s₀.regs.keylen.toNat k = keyByte u₀.keyRam u₀.regs.keylen.toNat k) →
    s₀.regs.nonce = u₀.regs.nonce → s₀.params = u₀.params →
    s.gen1 = prgaSteps s₁.gen1 n → s.gen2 = prgaSteps s₁.gen2 n →
    u.gen1 = prgaSteps u₁.gen1 n → u.gen2 = prgaSteps u₁.gen2 n →
    Memory.wf s.dmemInit s.dmem → Memory.wf u.dmemInit u.dmem →
    exec (transformInstr f) s = .next t → t.err = .none →
    exec (transformInstr g) u = .next v → v.err = .none →
    u.regs.count = s.regs.count → s.noOverlap f → u.noOverlap g →
    (∀ p, p < s.regs.count.toNat → u.memRead (u.inAddr p) = t.memRead (s.storeAddr f p)) →
    (∀ p, p < s.regs.count.toNat → v.memRead (u.storeAddr g p) = s.memRead (s.inAddr p)) ∧
    t.gen1 = prgaSteps s₁.gen1 (n + s.regs.count.toNat) ∧
    t.gen2 = prgaSteps s₁.gen2 (n + s.regs.count.toNat) ∧
    v.gen1 = prgaSteps u₁.gen1 (n + s.regs.count.toNat) ∧
    v.gen2 = prgaSteps u₁.gen2 (n + s.regs.count.toNat)

/-- R179: how the positions are split into commands does not matter. A TRANSFORM of p + q positions
leaves the same DMEM, tables and cursors as one of p followed by one of q on the rest of the same
slices. -/
def Obligations.SplitTransformsGiveTheSameBytes : Prop :=
  ∀ (s t : State) (p q : Word), p.toNat + q.toNat = s.regs.count.toNat →
    exec .transform s = .next t → t.err = .none →
    ∃ m r, exec .transform (s.setRegs { s.regs with count := p }) = .next m ∧ m.err = .none ∧
      exec .transform (m.setRegs { s.regs with
        count := q, inOff := s.regs.inOff + p, outOff := s.regs.outOff + p }) = .next r ∧
      r.err = .none ∧ r.dmem = t.dmem ∧ r.gen1 = t.gen1 ∧ r.gen2 = t.gen2

/-! ### The cipher's internal operations -/

/-- The nonce bytes of a register value are little-endian (R38), the second nonce is each byte plus 128
rotated left by one position, distinct nonces give distinct second nonces, and the two are equal
exactly for the nonces R112 lists. -/
def Obligations.SecondNonceIsRotatedAndBijective : Prop :=
  (∀ (w : Word) (i : Nat) (h : i < 4), (nonceOfWord w)[i] = w.extractLsb' (8 * i) 8) ∧
  (∀ (n : Nonce) (i : Nat) (h : i < 4),
    (deriveNonce2 n)[i].toNat = ((n[(i + 1) % 4]'(Nat.mod_lt _ (Nat.zero_lt_succ 3))).toNat + 128) % 256) ∧
  Function.Bijective deriveNonce2 ∧
  (∀ n : Nonce, deriveNonce2 n = n ↔
    n[1] = n[0] ^^^ 0x80 ∧ n[2] = n[0] ∧ n[3] = n[0] ^^^ 0x80)

/-- R113 and R115: entry i of LCR(n) is n[0] XOR the value of x after i + 1 updates
`x <- (a * x + c) mod 256` of the seed n[1], where a is TABLE_A[n[2] mod LEN_A] and c is
TABLE_C[n[3] mod LEN_C]. -/
def Obligations.LcrEntriesFollowTheRecurrence : Prop :=
  ∀ (p : Params) (n : Nonce) (a c : Byte),
    p.tableA[n[2].toNat % p.tableA.length]? = some a →
    p.tableC[n[3].toNat % p.tableC.length]? = some c →
    ∀ i : Byte, tableGet (lcr p n) i = n[0] ^^^ ((fun x => a * x + c)^[i.toNat + 1] n[1])

/-- R116: under a well-formed parameter set, which every `Params` is, LCR(n) is a permutation of
0..255. -/
def Obligations.LcrWritesAPermutation : Prop :=
  ∀ (p : Params) (n : Nonce), IsPermutation (lcr p n)

/-- R132: the scheduling phase keeps the permutation property, and so do the PRGA steps of the drop and
of the transforms. -/
def Obligations.SchedulingAndStepsKeepPermutations : Prop :=
  ∀ (ram : Table) (keylen : Nat) (t : Table), IsPermutation t →
    IsPermutation (schedule ram keylen t) ∧ IsPermutation (ksa ram keylen t).table ∧
    ∀ (x y : Byte) (n : Nat), IsPermutation (prgaSteps ⟨t, x, y⟩ n).table

/-- R131, its corner cases: two keys whose bytes `key[i mod L]` agree for i in 0..255 give the same
table and cursors, and a key longer than 256 bytes acts as its first 256 bytes. -/
def Obligations.KeySchedulerReadsOnlyTheRepeatedKey : Prop :=
  (∀ (r r' : Table) (k k' : Nat) (t : Table),
    (∀ i : Byte, keyByte r k i = keyByte r' k' i) → ksa r k t = ksa r' k' t) ∧
  (∀ (r : Table) (k : Nat) (t : Table), 256 < k → ksa r k t = ksa r 256 t)

/-- R130, R131, R133, R135: what the KSA computes. From j = 0, iteration i of 0..255 adds the entry at i
and KEY RAM[i mod KEYLEN] to j, modulo 256, and exchanges the entries at i and at the new j, keeping
every other; then come exactly 256 PRGA steps from the cursors (0, 0) on the scheduled table, after
which x is 0. KEYLEN = 0 is refused before the KSA runs (R136). -/
def Obligations.KeySchedulerSchedulesThenDrops : Prop :=
  ∀ (ram : Table) (keylen : Nat) (t : Table), 0 < keylen →
    (∃ (j : Nat → Byte) (T : Nat → Table), j 0 = 0 ∧ T 0 = t ∧ T 256 = schedule ram keylen t ∧
      ∀ i : Byte,
        let j' := j (i.toNat + 1)
        let T' := T (i.toNat + 1)
        j'.toNat = ((j i.toNat).toNat + (tableGet (T i.toNat) i).toNat +
          (ram[i.toNat % keylen]'(Nat.lt_of_le_of_lt (Nat.mod_le _ _) i.isLt)).toNat) % 256 ∧
        tableGet T' i = tableGet (T i.toNat) j' ∧ tableGet T' j' = tableGet (T i.toNat) i ∧
        ∀ k, k ≠ i → k ≠ j' → tableGet T' k = tableGet (T i.toNat) k) ∧
    (∃ G : Nat → Generator, G 0 = ⟨schedule ram keylen t, 0, 0⟩ ∧
      (∀ n, n < 256 → G (n + 1) = prgaStep (G n)) ∧ ksa ram keylen t = G 256) ∧
    (ksa ram keylen t).x = 0

/-- R150: the step adds 1 to x, adds the entry at the new x to y, and exchanges the entries at the new
cursors; every other entry is kept, so a permutation stays one. `prgaSteps` is that step repeated.
R152: the keystream byte is the entry at (T[x] + T[y]) mod 256, with T, x and y as they stand when it
is read, which for the byte of a step is after the step. -/
def Obligations.PrgaStepAdvancesCursorsAndSwaps : Prop :=
  ∀ g : Generator,
    let x' := g.x + 1
    let y' := g.y + tableGet g.table x'
    (prgaStep g).x = x' ∧ (prgaStep g).y = y' ∧
    tableGet (prgaStep g).table x' = tableGet g.table y' ∧
    tableGet (prgaStep g).table y' = tableGet g.table x' ∧
    (∀ i, i ≠ x' → i ≠ y' → tableGet (prgaStep g).table i = tableGet g.table i) ∧
    (IsPermutation g.table → IsPermutation (prgaStep g).table) ∧
    prgaSteps g 0 = g ∧ (∀ n, prgaSteps g (n + 1) = prgaStep (prgaSteps g n)) ∧
    ksByte g = g.table[((tableGet g.table g.x).toNat + (tableGet g.table g.y).toNat) % 256]'
      (Nat.mod_lt _ (Nat.zero_lt_succ 255))

/-- R154: the combined byte is (k1 + k2) mod 256 XOR the concatenation of k1[2:0] and k2[7:3]. -/
def Obligations.CombinerHasItsBitForm : Prop :=
  ∀ k1 k2 : Byte, combine k1 k2 =
    BitVec.ofNat 8 ((k1.toNat + k2.toNat) % 256) ^^^ (k1.extractLsb' 0 3 ++ k2.extractLsb' 3 5)

/-- R156 with R112: INIT from a nonce [u, u XOR 0x80, u, u XOR 0x80] gives equal tables and equal
cursor pairs, and then k1 = k2 at every position. -/
def Obligations.NonceEqualToItsSecondGivesEqualKeystreams : Prop :=
  ∀ (s : State) (u : Byte), s.regs.keylen ≠ 0 → s.regs.nonceLen = 4 →
    s.regs.nonce = (u ^^^ 0x80) ++ u ++ (u ^^^ 0x80) ++ u →
    ∃ t, exec .init s = .next t ∧ t.lstate = .ready ∧ t.gen1 = t.gen2 ∧
      ∀ n, ksByte (prgaSteps t.gen1 n) = ksByte (prgaSteps t.gen2 n)

/-- R199: two constructions with the same key bytes `key[i mod KEYLEN]`, the same nonce and the same
parameter set give the same tables and cursors, whatever else the two blocks hold. -/
def Obligations.ConstructionIsDeterministic : Prop :=
  ∀ (s t u v : State) (i j : Instr), (i = .init ∨ i = .initSeed) → (j = .init ∨ j = .initSeed) →
    exec i s = .next t → t.err = .none → exec j u = .next v → v.err = .none →
    (∀ k : Byte, keyByte s.keyRam s.regs.keylen.toNat k = keyByte u.keyRam u.regs.keylen.toNat k) →
    s.regs.nonce = u.regs.nonce → s.params = u.params →
    t.gen1 = v.gen1 ∧ t.gen2 = v.gen2

/-! ### The bus -/

/-- R35 with R27 and R211: STATUS carries BUSY in bit 0, LSTATE in bits 2:1, ERR in bits 7:4, and 0 in
the reserved bits. -/
def Obligations.StatusWordHasItsLayout : Prop :=
  ∀ s : State,
    s.statusWord[0] = s.busy ∧
    s.statusWord.extractLsb' 1 2 =
      (match s.lstate with | .uninitialized => 0 | .ready => 1 | .disposed => 2) ∧
    s.statusWord[3] = false ∧
    s.statusWord.extractLsb' 4 4 =
      (match s.err with
        | .none => 0 | .invalidArgument => 1 | .outOfRange => 2 | .notReady => 3 | .disposed => 4
        | .illegalCommand => 5) ∧
    s.statusWord.extractLsb' 8 24 = 0

/-- R33, R37, R38, R39, R40: the register map. Each read/write register has its offset: a write there
sets that register alone (ARGF its two implemented bits) and a read there returns it. So each reads
back the value written, and a write to one changes what no other register reads as, nor BUSY, ERR, LSTATE,
the tables, KEY RAM or DMEM; a write to a read-only register is ignored; CMD reads 0. -/
def Obligations.RegistersReadBackWhatWasWritten : Prop :=
  ∀ (s : State) (v : Word),
    (∀ o ∈ [0x00C, 0x010, 0x014, 0x01C, 0x020, 0x024, 0x028, 0x02C, 0x030, 0x034],
      (s.busWrite .word o v).busRead .word o = v) ∧
    (s.busWrite .word 0x018 v).busRead .word 0x018 = v &&& 3 ∧
    (∀ o ∈ [0x00C, 0x010, 0x014, 0x018, 0x01C, 0x020, 0x024, 0x028, 0x02C, 0x030, 0x034],
      s.busWrite .word o v = { s with regs := (s.busWrite .word o v).regs } ∧
      ∀ o' ∈ [0x000, 0x004, 0x008, 0x00C, 0x010, 0x014, 0x018, 0x01C, 0x020, 0x024, 0x028, 0x02C,
          0x030, 0x034],
        o' ≠ o → (s.busWrite .word o v).busRead .word o' = s.busRead .word o') ∧
    s.busWrite .word 0x004 v = s ∧ s.busWrite .word 0x008 v = s ∧ s.busRead .word 0x000 = 0 ∧
    s.busRead .word 0x004 = s.statusWord ∧ s.busRead .word 0x008 = s.result ∧
    (s.busWrite .word 0x00C v = { s with regs := { s.regs with keylen := v } } ∧
      s.busRead .word 0x00C = s.regs.keylen) ∧
    (s.busWrite .word 0x010 v = { s with regs := { s.regs with nonce := v } } ∧
      s.busRead .word 0x010 = s.regs.nonce) ∧
    (s.busWrite .word 0x014 v = { s with regs := { s.regs with nonceLen := v } } ∧
      s.busRead .word 0x014 = s.regs.nonceLen) ∧
    (s.busWrite .word 0x018 v = { s with regs := { s.regs with argf := v.extractLsb' 0 2 } } ∧
      s.busRead .word 0x018 = s.regs.argf.setWidth 32) ∧
    (s.busWrite .word 0x01C v = { s with regs := { s.regs with inBase := v } } ∧
      s.busRead .word 0x01C = s.regs.inBase) ∧
    (s.busWrite .word 0x020 v = { s with regs := { s.regs with inLen := v } } ∧
      s.busRead .word 0x020 = s.regs.inLen) ∧
    (s.busWrite .word 0x024 v = { s with regs := { s.regs with inOff := v } } ∧
      s.busRead .word 0x024 = s.regs.inOff) ∧
    (s.busWrite .word 0x028 v = { s with regs := { s.regs with count := v } } ∧
      s.busRead .word 0x028 = s.regs.count) ∧
    (s.busWrite .word 0x02C v = { s with regs := { s.regs with outBase := v } } ∧
      s.busRead .word 0x02C = s.regs.outBase) ∧
    (s.busWrite .word 0x030 v = { s with regs := { s.regs with outLen := v } } ∧
      s.busRead .word 0x030 = s.regs.outLen) ∧
    (s.busWrite .word 0x034 v = { s with regs := { s.regs with outOff := v } } ∧
      s.busRead .word 0x034 = s.regs.outOff)

/-- R61 and R66: a misaligned access, and an 8-bit or 16-bit access in the register window, does
nothing: a read returns 0 and a write changes no state. -/
def Obligations.MisalignedOrNarrowAccessDoesNothing : Prop :=
  ∀ (s : State) (w : Width) (n off : Nat) (v : Word),
    (w, n) ∈ [(Width.byte, 1), (Width.half, 2), (Width.word, 4)] →
    (off % n ≠ 0 ∨ (off < 0x100 ∧ (w = .byte ∨ w = .half))) →
    s.busRead w off = 0 ∧ s.busWrite w off v = s

/-- R42 and R64: a reserved offset reads 0 and a write to it is ignored, at every access size. -/
def Obligations.ReservedOffsetReadsZeroAndIgnoresWrites : Prop :=
  ∀ (s : State) (w : Width) (off : Nat) (v : Word),
    ((0x038 ≤ off ∧ off ≤ 0x0FF) ∨ (0x200 ≤ off ∧ off ≤ 0xFFF) ∨
      0x1000 + s.params.dmemSize ≤ off) →
    s.busRead w off = 0 ∧ s.busWrite w off v = s

/-- R62: an aligned write of size s in the key window writes s consecutive KEY RAM bytes, lane k to
byte i + k, and nothing else; every read in the key window returns 0. -/
def Obligations.KeyWindowIsWriteOnly : Prop :=
  ∀ (s : State) (w : Width) (n i : Nat) (v : Word),
    (w, n) ∈ [(Width.byte, 1), (Width.half, 2), (Width.word, 4)] → i < 256 →
    s.busRead w (0x100 + i) = 0 ∧
    (i % n = 0 →
      s.busWrite w (0x100 + i) v = { s with keyRam := (s.busWrite w (0x100 + i) v).keyRam } ∧
      ∀ j : Byte, tableGet (s.busWrite w (0x100 + i) v).keyRam j =
        if i ≤ j.toNat ∧ j.toNat < i + n then v.extractLsb' (8 * (j.toNat - i)) 8
        else tableGet s.keyRam j)

/-- R63 and R65: an aligned access in the data window reads or writes its consecutive DMEM bytes in
little-endian lanes; a write changes no other byte and no other state. -/
def Obligations.DataWindowIsLittleEndian : Prop :=
  ∀ (s : State) (w : Width) (n a : Nat) (v : Word), Memory.wf s.dmemInit s.dmem →
    (w, n) ∈ [(Width.byte, 1), (Width.half, 2), (Width.word, 4)] →
    a < s.params.dmemSize → a % n = 0 →
    (∀ k, k < n → (s.busRead w (0x1000 + a)).extractLsb' (8 * k) 8 = s.memRead (a + k)) ∧
    s.busWrite w (0x1000 + a) v = { s with dmem := (s.busWrite w (0x1000 + a) v).dmem } ∧
    (∀ x, (s.busWrite w (0x1000 + a) v).memRead x =
      if a ≤ x ∧ x < a + n then v.extractLsb' (8 * (x - a)) 8 else s.memRead x)

/-- R68: no read has a side effect on the block, and every write but a 32-bit aligned write to CMD is
idempotent. -/
def Obligations.ReadsHaveNoEffectAndWritesAreIdempotent : Prop :=
  ∀ (s : State) (w : Width) (addr : Nat) (v : Word),
    { s.perform (.read w addr) with replies := s.replies } = s ∧
    (Memory.wf s.dmemInit s.dmem → ¬ (w = .word ∧ addr = s.params.blockBase) →
      (s.perform (.write w addr v)).perform (.write w addr v) = s.perform (.write w addr v))

/-- The host cannot read S1, S2, the cursors or KEY RAM (R22, R24, R28): two blocks that differ only in
them answer every access alike, and still differ only in them afterwards. -/
def Obligations.HostAccessesRevealNoSecretState : Prop :=
  ∀ (s u : State) (a : Access),
    u = { s with gen1 := u.gen1, gen2 := u.gen2, keyRam := u.keyRam } →
    (u.perform a).replies = (s.perform a).replies ∧
    u.perform a = { s.perform a with
      gen1 := u.gen1, gen2 := u.gen2, keyRam := (u.perform a).keyRam }

/-! ### Reset and invariants -/

/-- R43: every state element's reset value, for every parameter set and every DMEM_INIT; `State.reset`
is that state at the free parameters. -/
def Obligations.ResetGivesTheListedValues : Prop :=
  (∀ (p : Params) (init : List Byte),
    let r := State.afterReset p init
    (∀ i, tableGet r.gen1.table i = 0 ∧ tableGet r.gen2.table i = 0 ∧ tableGet r.keyRam i = 0) ∧
    r.gen1.x = 0 ∧ r.gen1.y = 0 ∧ r.gen2.x = 0 ∧ r.gen2.y = 0 ∧ r.lstate = .uninitialized ∧
    (∀ a, r.memRead a = init.getD a 0) ∧ r.busy = false ∧ r.err = .none ∧ r.result = 0 ∧
    r.cmdLatch = 0 ∧ r.regs.keylen = 0 ∧ r.regs.nonce = 0 ∧ r.regs.nonceLen = 0 ∧ r.regs.argf = 0 ∧
    r.regs.inBase = 0 ∧ r.regs.inLen = 0 ∧ r.regs.inOff = 0 ∧ r.regs.count = 0 ∧
    r.regs.outBase = 0 ∧ r.regs.outLen = 0 ∧ r.regs.outOff = 0) ∧
  State.reset = State.afterReset Config.params Config.dmemInit

/-- R240, R241: reset takes precedence over everything. It leaves the reset state whatever ran or was
held: the running command has no result, the accesses held before it are not performed, and where the
platform still completes them each read of the block returns 0. Whether it completes them is said by
the reset input (DESIGN CHOICE, notes/assumptions/7.md). R70 performs a STATUS read at once and R241
cancels none: that a STATUS read in `held` waits behind a held access, and is cancelled with it and
answered 0, is the model's choice (DESIGN CHOICE, notes/assumptions/4.md), and so it is where the
access it waits behind is not the block's (DESIGN CHOICE, notes/assumptions/8.md). -/
def Obligations.ResetAbandonsTheCommandAndHeldAccesses : Prop :=
  (∀ (s : State) (draw : List Byte) (ans : Bool) (rest : List Input),
    s.inputs = .reset draw ans :: rest →
    step s = .next { State.afterReset s.params draw with inputs := rest, replies := s.replies }) ∧
  (∀ (s : State) (a : Access) (held : List Access) (draw : List Byte) (ans : Bool)
      (rest : List Input), s.busy = true → a ≠ .read .word (s.params.blockBase + 0x004) →
    s.inputs = .access a :: (held.map .access ++ .reset draw ans :: rest) →
    step s = .next { State.afterReset s.params draw with
      inputs := rest
      replies := s.replies ++ (if ans then
        List.replicate ((a :: held).countP fun b => match b with
          | .read _ addr => (busOffset s.params.blockBase addr).isSome
          | .write _ _ _ => false) 0
        else []) })

/-- The invariant holds in every state a reset leaves, `State.reset` among them. -/
def Obligations.InvariantHoldsAfterReset : Prop :=
  (∀ (p : Params) (init : List Byte), (State.afterReset p init).Inv) ∧ State.reset.Inv

/-- Every step keeps the invariant: while READY both tables are permutations, and otherwise tables and
cursors are zero (R25); DMEM stays in canonical form inside DMEM_SIZE (R29); RESULT is 0 after an
error and outside READY (R36, R214). -/
def Obligations.EveryStepKeepsTheInvariant : Prop :=
  ∀ s t : State, s.Inv → step s = .next t → t.Inv
end

