-- ==== Sys2Proof/Laws/Decode.lean ====
section
/-! SUPPORT. The laws of the encoding: the fields of a word and the word of fields are inverse (R90), and
an OPCODE selects a command exactly when it is that command's (R91). -/

namespace Sys2Proof

/-- The word of a word's fields is the word (30_encoding.md rule R90). -/
theorem wordOf_fieldsOf (w : Word) : wordOf (fieldsOf w) = w := by
  apply BitVec.eq_of_toNat_eq
  have := w.isLt
  rw [wordOf, fieldsOf, BitVec.toNat_append, ← Nat.shiftLeft_add_eq_or_of_lt (by simp; omega)]
  simp [Nat.shiftRight_eq_div_pow, Nat.shiftLeft_eq]
  omega

/-- The fields of the word of fields are the fields (R90). -/
theorem fieldsOf_wordOf (c : Cmd32) : fieldsOf (wordOf c) = c := by
  obtain ⟨op, mbz⟩ := c
  have h1 := op.isLt
  have h2 := mbz.isLt
  simp only [fieldsOf, wordOf, Cmd32.mk.injEq]
  constructor
  · apply BitVec.eq_of_toNat_eq
    simp only [BitVec.extractLsb'_toNat, BitVec.toNat_append, Nat.shiftRight_eq_div_pow]
    rw [← Nat.shiftLeft_add_eq_or_of_lt h1, Nat.shiftLeft_eq]
    omega
  · apply BitVec.eq_of_toNat_eq
    simp only [BitVec.extractLsb'_toNat, BitVec.toNat_append, Nat.shiftRight_eq_div_pow]
    rw [← Nat.shiftLeft_add_eq_or_of_lt h1, Nat.shiftLeft_eq]
    omega

/-- An OPCODE selects a command exactly when it is that command's (R91). -/
theorem decodeOpcode_eq_some {op : Byte} {i : Instr} : decodeOpcode op = some i ↔ op = opcodeOf i := by
  constructor
  · intro h
    unfold decodeOpcode at h
    repeat' split at h
    all_goals simp only [Option.some.injEq, reduceCtorEq] at h
    all_goals subst h; assumption
  · rintro rfl
    cases i <;> rfl

/-- A word decodes to a command exactly when its fields are that command's. -/
theorem decode_eq_command {w : Word} {i : Instr} :
    decode w = .command i ↔ fieldsOf w = ⟨opcodeOf i, 0⟩ := by
  unfold decode
  dsimp only
  split
  · next h =>
    have : decodeOpcode (fieldsOf w).opcode = some i ↔ fieldsOf w = ⟨opcodeOf i, 0⟩ := by
      rw [decodeOpcode_eq_some, ← h]
      constructor
      · intro e
        rw [← e]
      · intro e
        rw [e]
    rw [← this]
    cases decodeOpcode (fieldsOf w).opcode <;> simp
  · next h =>
    simp only [reduceCtorEq, false_iff]
    intro e
    exact h (by rw [e])

/-- A word is ILLEGAL exactly when its fields are those of no command (R93, R94). -/
theorem decode_illegal_iff {w : Word} :
    (∃ why, decode w = .illegal why) ↔ ∀ i, fieldsOf w ≠ ⟨opcodeOf i, 0⟩ := by
  cases hd : decode w with
  | command i => simpa using ⟨i, decode_eq_command.1 hd⟩
  | illegal why =>
    simp only [Decoded.illegal.injEq, exists_eq', true_iff]
    intro i e
    rw [decode_eq_command.2 e] at hd
    simp at hd

end Sys2Proof
end

