-- ==== Sys2Proof/Laws/Tables.lean ====
section
/-! SUPPORT. The laws of table entries and of the swap: read after write, extensionality, and that a
swap keeps the permutation property (41_ksa.md rule R132). -/

namespace Sys2Proof.Machine

/-- Reading an entry after writing one. -/
theorem tableGet_tableSet (t : Table) (i j v : Byte) :
    tableGet (tableSet t i v) j = if j = i then v else tableGet t j := by
  unfold tableGet tableSet
  rw [Vector.getElem_set]
  simp only [BitVec.toNat_inj, eq_comm]

/-- Two tables with the same entries are equal. -/
theorem table_ext {t t' : Table} (h : ∀ i, tableGet t i = tableGet t' i) : t = t' := by
  refine Vector.ext fun i hi => ?_
  have := h (BitVec.ofNat 8 i)
  simpa [tableGet, Nat.mod_eq_of_lt hi] using this

/-- An entry of the zero table. -/
@[simp] theorem tableGet_zeroTable (i : Byte) : tableGet zeroTable i = 0 := by
  simp [tableGet, zeroTable]

/-- An entry after a swap: the two named entries are exchanged and every other one is kept. -/
theorem tableGet_tableSwap (t : Table) (i j k : Byte) :
    tableGet (tableSwap t i j) k =
      if k = j then tableGet t i else if k = i then tableGet t j else tableGet t k := by
  unfold tableSwap
  rw [tableGet_tableSet, tableGet_tableSet]

/-- A swap of an entry with itself does nothing (R12). -/
@[simp] theorem tableSwap_self (t : Table) (i : Byte) : tableSwap t i i = t :=
  table_ext fun k => by
    rw [tableGet_tableSwap]
    split
    · next h => rw [h]
    · rfl

/-- The three-step exchange only reorders the entries. -/
theorem tableSwap_perm (t : Table) (i j : Byte) : (tableSwap t i j).toList.Perm t.toList := by
  have h : tableSwap t i j = t.swap i.toNat j.toNat i.isLt j.isLt := by
    refine Vector.ext fun k hk => ?_
    simp only [tableSwap, tableSet, tableGet, Vector.getElem_set, Vector.getElem_swap]
    split
    · next e =>
      subst e
      split
      · next e => simp only [e]
      · simp
    · next e =>
      split
      · next e' =>
        subst e'
        simp
      · next e' => simp [Ne.symm e, Ne.symm e']
  rw [h]
  have := Array.swap_perm (xs := t.toArray) (i := i.toNat) (j := j.toNat)
    (by simpa using i.isLt) (by simpa using j.isLt)
  simpa [Array.perm_iff_toList_perm, Vector.toList, Vector.swap] using this

/-- A swap keeps the permutation property (R132). -/
theorem IsPermutation.swap {t : Table} (h : IsPermutation t) (i j : Byte) :
    IsPermutation (tableSwap t i j) :=
  ⟨(tableSwap_perm t i j).nodup_iff.2 h.1, fun b => (tableSwap_perm t i j).mem_iff.2 (h.2 b)⟩

/-- Being a permutation, by entries: every value stands at exactly one index. -/
theorem isPermutation_iff_bijective (t : Table) :
    IsPermutation t ↔ Function.Bijective (tableGet t) := by
  have surj : (∀ b : Byte, b ∈ t.toList) ↔ Function.Surjective (tableGet t) := by
    refine forall_congr' fun b => ?_
    simp only [Vector.mem_toList_iff, Vector.mem_iff_getElem]
    constructor
    · rintro ⟨i, hi, e⟩
      exact ⟨BitVec.ofNat 8 i, by simpa [tableGet, Nat.mod_eq_of_lt hi] using e⟩
    · rintro ⟨i, e⟩
      exact ⟨i.toNat, i.isLt, e⟩
  have inj : t.toList.Nodup ↔ Function.Injective (tableGet t) := by
    rw [List.nodup_iff_injective_getElem]
    constructor
    · intro h i j e
      have := @h ⟨i.toNat, by simpa using i.isLt⟩ ⟨j.toNat, by simpa using j.isLt⟩ (by simpa [tableGet] using e)
      exact BitVec.eq_of_toNat_eq (by simpa using this)
    · intro h i j e
      have hi := i.isLt
      have hj := j.isLt
      simp only [Vector.length_toList] at hi hj
      have := @h (BitVec.ofNat 8 i) (BitVec.ofNat 8 j)
        (by simpa [tableGet, Nat.mod_eq_of_lt hi, Nat.mod_eq_of_lt hj] using e)
      have := congrArg BitVec.toNat this
      rw [BitVec.toNat_ofNat, BitVec.toNat_ofNat, Nat.mod_eq_of_lt hi, Nat.mod_eq_of_lt hj] at this
      exact Fin.ext this
  rw [IsPermutation, surj, inj, Function.Bijective]

end Sys2Proof.Machine
end

