-- ==== Sys2Proof/Laws/Generators.lean ====
section
/-! SUPPORT. The laws of the generators: what PRGA steps and the key schedule do to cursors and tables,
and the period of the LCR recurrence. -/

namespace Sys2Proof.Machine

/-- One step adds 1 to x (42_prga_combiner.md rule R151). -/
@[simp] theorem prgaStep_x (g : Generator) : (prgaStep g).x = g.x + 1 := rfl

/-- `n` steps add `n` to x, modulo 256. -/
theorem prgaSteps_x (g : Generator) (n : Nat) : (prgaSteps g n).x = g.x + BitVec.ofNat 8 n := by
  induction n with
  | zero => simp [prgaSteps]
  | succ n ih =>
    rw [prgaSteps, prgaStep_x, ih, BitVec.add_assoc]
    congr 1
    exact BitVec.eq_of_toNat_eq (by simp)

/-- Steps in a row can be split anywhere. -/
theorem prgaSteps_add (g : Generator) (m n : Nat) :
    prgaSteps g (m + n) = prgaSteps (prgaSteps g m) n := by
  induction n with
  | zero => rfl
  | succ n ih => rw [← Nat.add_assoc, prgaSteps, prgaSteps, ih]

/-- A step keeps the permutation property. -/
theorem prgaStep_isPermutation {g : Generator} (h : IsPermutation g.table) :
    IsPermutation (prgaStep g).table := h.swap _ _

/-- Steps keep the permutation property. -/
theorem prgaSteps_isPermutation {g : Generator} (h : IsPermutation g.table) (n : Nat) :
    IsPermutation (prgaSteps g n).table := by
  induction n with
  | zero => exact h
  | succ n ih => exact prgaStep_isPermutation ih

/-- An iteration of the scheduling loop swaps two entries of the table. -/
theorem scheduleStep_isPermutation {ram : Table} {k : Nat} {i : Byte} {jt : Byte × Table}
    (h : IsPermutation jt.2) : IsPermutation (scheduleStep ram k i jt).2 := h.swap _ _

/-- The scheduling loop keeps the permutation property. -/
theorem scheduleSteps_isPermutation {t : Table} (h : IsPermutation t) (ram : Table) (k n : Nat) :
    IsPermutation (scheduleSteps ram k t n).2 := by
  induction n with
  | zero => exact h
  | succ n ih => exact scheduleStep_isPermutation ih

/-- After the drop the cursor x is 0 (41_ksa.md rule R133). -/
theorem drop256_x (t : Table) : (drop256 t).x = 0 := by
  rw [drop256, prgaSteps_x]
  rfl

/-! ### The LCR recurrence -/

/-- Entry `i` of the LCR loop. -/
theorem lcrEntries_getElem (a c r x : Byte) (k i : Nat) (h : i < (lcrEntries a c r k x).length) :
    (lcrEntries a c r k x)[i] = r ^^^ (lcrNext a c)^[i + 1] x := by
  induction k generalizing x i with
  | zero => simp [lcrEntries] at h
  | succ k ih =>
    cases i with
    | zero => rfl
    | succ i =>
      simp only [lcrEntries, List.getElem_cons_succ]
      rw [ih]
      rfl

/-- Entry `i` of an LCR table. -/
theorem tableGet_lcrTable (a c r x i : Byte) :
    tableGet (lcrTable a c r x) i = r ^^^ (lcrNext a c)^[i.toNat + 1] x := by
  simp only [tableGet, lcrTable, Vector.getElem_mk, List.getElem_toArray, lcrEntries_getElem]

/-- `2^k` updates are one affine update, whose constants are found by repeated squaring. -/
theorem lcrNext_iterate_two_mul (a c a' c' : Byte) (n : Nat) (h : (lcrNext a c)^[n] = lcrNext a' c') :
    (lcrNext a c)^[2 * n] = lcrNext (a' * a') (a' * c' + c') := by
  have : 2 * n = n + n := by omega
  rw [this, Function.iterate_add, h]
  funext x
  simp only [Function.comp_apply, lcrNext]
  ring

end Sys2Proof.Machine
end

