-- ==== Sys2Proof/Laws/Memory.lean ====
section
/-! SUPPORT. The laws of DMEM as a list of cells: read after write, every write keeps the canonical
form, and canonical memories with the same bytes are the same list. -/

namespace Sys2Proof.Machine

variable {init : List Byte} {m : Memory} {a a' : Nat} {b : Byte}

/-- An address below every listed one reads as DMEM_INIT. -/
theorem Memory.read_of_lt (h : ∀ c ∈ m, a < c.1) :
    Memory.read init m a = Memory.unlisted init a := by
  induction m with
  | nil => rfl
  | cons c m ih =>
    have hc := h c (by simp)
    rw [Memory.read, if_neg (by omega)]
    exact ih fun d hd => h d (by simp [hd])

/-- What `place` reads as, in front of cells above its address. -/
theorem Memory.read_place (h : ∀ c ∈ m, a < c.1) :
    Memory.read init (Memory.place init a b m) a' = if a' = a then b else Memory.read init m a' := by
  unfold Memory.place
  by_cases hb : b = Memory.unlisted init a
  · rw [if_pos hb]
    split
    · next e => rw [e, Memory.read_of_lt h, hb]
    · rfl
  · rw [if_neg hb, Memory.read]
    by_cases e : a = a'
    · simp [e]
    · rw [if_neg e, if_neg (Ne.symm e)]

/-- Reading after writing: the written byte at its address, the old byte everywhere else. -/
theorem Memory.read_write (h : m.Pairwise fun p q => p.1 < q.1) :
    Memory.read init (Memory.write init m a b) a' = if a' = a then b else Memory.read init m a' := by
  induction m with
  | nil => exact Memory.read_place (by simp)
  | cons c m ih =>
    obtain ⟨k, c⟩ := c
    obtain ⟨hk, hm⟩ := List.pairwise_cons.1 h
    unfold Memory.write
    by_cases h1 : a < k
    · rw [if_pos h1]
      refine Memory.read_place fun d hd => ?_
      rcases List.mem_cons.1 hd with rfl | hd
      · exact h1
      · exact Nat.lt_trans h1 (hk d hd)
    · rw [if_neg h1]
      by_cases h2 : k = a
      · subst h2
        rw [if_pos rfl, Memory.read_place hk, Memory.read]
        by_cases e : a' = k
        · simp [e]
        · rw [if_neg e, if_neg e, if_neg (Ne.symm e)]
      · rw [if_neg h2, Memory.read, Memory.read, ih hm]
        by_cases e : k = a'
        · rw [if_pos e, if_pos e, if_neg (by omega)]
        · rw [if_neg e, if_neg e]

/-- Every cell of a write is an old cell or the written one. -/
theorem Memory.mem_write {c : Host.Cell} (h : c ∈ Memory.write init m a b) :
    c ∈ m ∨ (c = (a, b) ∧ b ≠ Memory.unlisted init a) := by
  have place : ∀ m : Memory, c ∈ Memory.place init a b m →
      c ∈ m ∨ (c = (a, b) ∧ b ≠ Memory.unlisted init a) := by
    intro m h
    unfold Memory.place at h
    split at h
    · exact .inl h
    · next hb =>
      rcases List.mem_cons.1 h with rfl | h
      · exact .inr ⟨rfl, hb⟩
      · exact .inl h
  induction m with
  | nil => exact place _ h
  | cons d m ih =>
    obtain ⟨k, d⟩ := d
    unfold Memory.write at h
    split at h
    · exact place _ h
    · split at h
      · rcases place _ h with h | h
        · exact .inl (List.mem_cons_of_mem _ h)
        · exact .inr h
      · rcases List.mem_cons.1 h with rfl | h
        · simp
        · rcases ih h with h | h
          · exact .inl (List.mem_cons_of_mem _ h)
          · exact .inr h

/-- A write keeps the addresses strictly rising. -/
theorem Memory.write_sorted (h : m.Pairwise fun p q => p.1 < q.1) :
    (Memory.write init m a b).Pairwise fun p q => p.1 < q.1 := by
  have place : ∀ m : Memory, (m.Pairwise fun p q => p.1 < q.1) → (∀ c ∈ m, a < c.1) →
      (Memory.place init a b m).Pairwise fun p q => p.1 < q.1 := by
    intro m h hlt
    unfold Memory.place
    split
    · exact h
    · exact List.pairwise_cons.2 ⟨hlt, h⟩
  induction m with
  | nil => exact place _ (by simp) (by simp)
  | cons c m ih =>
    obtain ⟨k, c⟩ := c
    obtain ⟨hk, hm⟩ := List.pairwise_cons.1 h
    unfold Memory.write
    split
    · next h1 =>
      refine place _ h fun d hd => ?_
      rcases List.mem_cons.1 hd with rfl | hd
      · exact h1
      · exact Nat.lt_trans h1 (hk d hd)
    · split
      · next h2 => exact place _ hm fun d hd => h2 ▸ hk d hd
      · refine List.pairwise_cons.2 ⟨fun d hd => ?_, ih hm⟩
        rcases Memory.mem_write hd with hd | ⟨rfl, -⟩
        · exact hk d hd
        · change k < a
          omega

/-- A write keeps the canonical form. -/
theorem Memory.write_wf (h : Memory.wf init m) : Memory.wf init (Memory.write init m a b) := by
  refine ⟨Memory.write_sorted h.1, fun c hc => ?_⟩
  rcases Memory.mem_write hc with hc | ⟨rfl, hb⟩
  · exact h.2 c hc
  · exact hb

/-- A write below `size` keeps every listed address below `size`. -/
theorem Memory.write_inside {size : Nat} (h : Memory.inside size m) (ha : a < size) :
    Memory.inside size (Memory.write init m a b) := by
  intro c hc
  rcases Memory.mem_write hc with hc | ⟨rfl, -⟩
  · exact h c hc
  · exact ha

/-- The empty memory is canonical, and reads as DMEM_INIT everywhere. -/
theorem Memory.nil_wf : Memory.wf init [] := by simp [Memory.wf]

/-- A listed byte is what its address reads as. -/
theorem Memory.read_of_mem (h : m.Pairwise fun p q => p.1 < q.1) {c : Host.Cell} (hc : c ∈ m) :
    Memory.read init m c.1 = c.2 := by
  induction m with
  | nil => simp at hc
  | cons d m ih =>
    obtain ⟨hd, hm⟩ := List.pairwise_cons.1 h
    rcases List.mem_cons.1 hc with rfl | hc
    · simp [Memory.read]
    · have := hd c hc
      rw [Memory.read, if_neg (by omega)]
      exact ih hm hc

/-- Two canonical memories over the same DMEM_INIT that read alike everywhere are the same list. -/
theorem Memory.ext_of_read {m' : Memory} (h : Memory.wf init m) (h' : Memory.wf init m')
    (e : ∀ a, Memory.read init m a = Memory.read init m' a) : m = m' := by
  induction m generalizing m' with
  | nil =>
    cases m' with
    | nil => rfl
    | cons c m' =>
      have := e c.1
      rw [Memory.read_of_mem h'.1 (List.mem_cons_self)] at this
      exact absurd this.symm (h'.2 c List.mem_cons_self)
  | cons c m ih =>
    cases m' with
    | nil =>
      have := e c.1
      rw [Memory.read_of_mem h.1 (List.mem_cons_self)] at this
      exact absurd this (h.2 c List.mem_cons_self)
    | cons c' m' =>
      obtain ⟨hc, hm⟩ := List.pairwise_cons.1 h.1
      obtain ⟨hc', hm'⟩ := List.pairwise_cons.1 h'.1
      have head : ∀ (p q : Host.Cell) (l l' : Memory), Memory.wf init (p :: l) →
          Memory.wf init (q :: l') → (∀ a, Memory.read init (p :: l) a = Memory.read init (q :: l') a) →
          ¬ p.1 < q.1 := by
        intro p q l l' hp hq e hlt
        have h1 := e p.1
        rw [Memory.read_of_mem hp.1 List.mem_cons_self, Memory.read_of_lt (fun d hd => by
          rcases List.mem_cons.1 hd with rfl | hd
          · exact hlt
          · exact Nat.lt_trans hlt ((List.pairwise_cons.1 hq.1).1 d hd))] at h1
        exact hp.2 p List.mem_cons_self h1
      have h1 := head c c' m m' h h' e
      have h2 := head c' c m' m h' h fun a => (e a).symm
      have hk : c.1 = c'.1 := by omega
      have hb : c.2 = c'.2 := by
        have := e c.1
        rw [Memory.read_of_mem h.1 List.mem_cons_self, hk,
          Memory.read_of_mem h'.1 List.mem_cons_self] at this
        exact this
      have hcc : c = c' := Prod.ext hk hb
      subst hcc
      congr 1
      refine ih ⟨hm, fun d hd => h.2 d (List.mem_cons_of_mem _ hd)⟩
        ⟨hm', fun d hd => h'.2 d (List.mem_cons_of_mem _ hd)⟩ fun a => ?_
      by_cases ha : a = c.1
      · subst ha
        rw [Memory.read_of_lt hc, Memory.read_of_lt hc']
      · have := e a
        rwa [Memory.read, Memory.read, if_neg (Ne.symm ha), if_neg (Ne.symm ha)] at this

end Sys2Proof.Machine
end

