-- ==== Sys2Proof/Laws/State.lean ====
section
/-! SUPPORT. One lemma for each field of `State` and each named update of it, so that no proof unfolds
a record update. -/

namespace Sys2Proof.Machine

/-! ### `memWrite` -/

@[simp] theorem State.memWrite_gen1 (s : State) (a : Nat) (b : Byte) :
    (s.memWrite a b).gen1 = s.gen1 := rfl
@[simp] theorem State.memWrite_gen2 (s : State) (a : Nat) (b : Byte) :
    (s.memWrite a b).gen2 = s.gen2 := rfl
@[simp] theorem State.memWrite_lstate (s : State) (a : Nat) (b : Byte) :
    (s.memWrite a b).lstate = s.lstate := rfl
@[simp] theorem State.memWrite_keyRam (s : State) (a : Nat) (b : Byte) :
    (s.memWrite a b).keyRam = s.keyRam := rfl
@[simp] theorem State.memWrite_dmem (s : State) (a : Nat) (b : Byte) :
    (s.memWrite a b).dmem = Memory.write s.dmemInit s.dmem a b := rfl
@[simp] theorem State.memWrite_dmemInit (s : State) (a : Nat) (b : Byte) :
    (s.memWrite a b).dmemInit = s.dmemInit := rfl
@[simp] theorem State.memWrite_busy (s : State) (a : Nat) (b : Byte) :
    (s.memWrite a b).busy = s.busy := rfl
@[simp] theorem State.memWrite_err (s : State) (a : Nat) (b : Byte) :
    (s.memWrite a b).err = s.err := rfl
@[simp] theorem State.memWrite_result (s : State) (a : Nat) (b : Byte) :
    (s.memWrite a b).result = s.result := rfl
@[simp] theorem State.memWrite_cmdLatch (s : State) (a : Nat) (b : Byte) :
    (s.memWrite a b).cmdLatch = s.cmdLatch := rfl
@[simp] theorem State.memWrite_regs (s : State) (a : Nat) (b : Byte) :
    (s.memWrite a b).regs = s.regs := rfl
@[simp] theorem State.memWrite_params (s : State) (a : Nat) (b : Byte) :
    (s.memWrite a b).params = s.params := rfl
@[simp] theorem State.memWrite_inputs (s : State) (a : Nat) (b : Byte) :
    (s.memWrite a b).inputs = s.inputs := rfl
@[simp] theorem State.memWrite_replies (s : State) (a : Nat) (b : Byte) :
    (s.memWrite a b).replies = s.replies := rfl

/-! ### `keyWrite` -/

@[simp] theorem State.keyWrite_gen1 (s : State) (i b : Byte) :
    (s.keyWrite i b).gen1 = s.gen1 := rfl
@[simp] theorem State.keyWrite_gen2 (s : State) (i b : Byte) :
    (s.keyWrite i b).gen2 = s.gen2 := rfl
@[simp] theorem State.keyWrite_lstate (s : State) (i b : Byte) :
    (s.keyWrite i b).lstate = s.lstate := rfl
@[simp] theorem State.keyWrite_keyRam (s : State) (i b : Byte) :
    (s.keyWrite i b).keyRam = tableSet s.keyRam i b := rfl
@[simp] theorem State.keyWrite_dmem (s : State) (i b : Byte) :
    (s.keyWrite i b).dmem = s.dmem := rfl
@[simp] theorem State.keyWrite_dmemInit (s : State) (i b : Byte) :
    (s.keyWrite i b).dmemInit = s.dmemInit := rfl
@[simp] theorem State.keyWrite_busy (s : State) (i b : Byte) :
    (s.keyWrite i b).busy = s.busy := rfl
@[simp] theorem State.keyWrite_err (s : State) (i b : Byte) :
    (s.keyWrite i b).err = s.err := rfl
@[simp] theorem State.keyWrite_result (s : State) (i b : Byte) :
    (s.keyWrite i b).result = s.result := rfl
@[simp] theorem State.keyWrite_cmdLatch (s : State) (i b : Byte) :
    (s.keyWrite i b).cmdLatch = s.cmdLatch := rfl
@[simp] theorem State.keyWrite_regs (s : State) (i b : Byte) :
    (s.keyWrite i b).regs = s.regs := rfl
@[simp] theorem State.keyWrite_params (s : State) (i b : Byte) :
    (s.keyWrite i b).params = s.params := rfl
@[simp] theorem State.keyWrite_inputs (s : State) (i b : Byte) :
    (s.keyWrite i b).inputs = s.inputs := rfl
@[simp] theorem State.keyWrite_replies (s : State) (i b : Byte) :
    (s.keyWrite i b).replies = s.replies := rfl

/-! ### `clearKey` -/

@[simp] theorem State.clearKey_gen1 (s : State) :
    (s.clearKey).gen1 = s.gen1 := rfl
@[simp] theorem State.clearKey_gen2 (s : State) :
    (s.clearKey).gen2 = s.gen2 := rfl
@[simp] theorem State.clearKey_lstate (s : State) :
    (s.clearKey).lstate = s.lstate := rfl
@[simp] theorem State.clearKey_keyRam (s : State) :
    (s.clearKey).keyRam = zeroTable := rfl
@[simp] theorem State.clearKey_dmem (s : State) :
    (s.clearKey).dmem = s.dmem := rfl
@[simp] theorem State.clearKey_dmemInit (s : State) :
    (s.clearKey).dmemInit = s.dmemInit := rfl
@[simp] theorem State.clearKey_busy (s : State) :
    (s.clearKey).busy = s.busy := rfl
@[simp] theorem State.clearKey_err (s : State) :
    (s.clearKey).err = s.err := rfl
@[simp] theorem State.clearKey_result (s : State) :
    (s.clearKey).result = s.result := rfl
@[simp] theorem State.clearKey_cmdLatch (s : State) :
    (s.clearKey).cmdLatch = s.cmdLatch := rfl
@[simp] theorem State.clearKey_regs (s : State) :
    (s.clearKey).regs = s.regs := rfl
@[simp] theorem State.clearKey_params (s : State) :
    (s.clearKey).params = s.params := rfl
@[simp] theorem State.clearKey_inputs (s : State) :
    (s.clearKey).inputs = s.inputs := rfl
@[simp] theorem State.clearKey_replies (s : State) :
    (s.clearKey).replies = s.replies := rfl

/-! ### `setGenerators` -/

@[simp] theorem State.setGenerators_gen1 (s : State) (g1 g2 : Generator) :
    (s.setGenerators g1 g2).gen1 = g1 := rfl
@[simp] theorem State.setGenerators_gen2 (s : State) (g1 g2 : Generator) :
    (s.setGenerators g1 g2).gen2 = g2 := rfl
@[simp] theorem State.setGenerators_lstate (s : State) (g1 g2 : Generator) :
    (s.setGenerators g1 g2).lstate = s.lstate := rfl
@[simp] theorem State.setGenerators_keyRam (s : State) (g1 g2 : Generator) :
    (s.setGenerators g1 g2).keyRam = s.keyRam := rfl
@[simp] theorem State.setGenerators_dmem (s : State) (g1 g2 : Generator) :
    (s.setGenerators g1 g2).dmem = s.dmem := rfl
@[simp] theorem State.setGenerators_dmemInit (s : State) (g1 g2 : Generator) :
    (s.setGenerators g1 g2).dmemInit = s.dmemInit := rfl
@[simp] theorem State.setGenerators_busy (s : State) (g1 g2 : Generator) :
    (s.setGenerators g1 g2).busy = s.busy := rfl
@[simp] theorem State.setGenerators_err (s : State) (g1 g2 : Generator) :
    (s.setGenerators g1 g2).err = s.err := rfl
@[simp] theorem State.setGenerators_result (s : State) (g1 g2 : Generator) :
    (s.setGenerators g1 g2).result = s.result := rfl
@[simp] theorem State.setGenerators_cmdLatch (s : State) (g1 g2 : Generator) :
    (s.setGenerators g1 g2).cmdLatch = s.cmdLatch := rfl
@[simp] theorem State.setGenerators_regs (s : State) (g1 g2 : Generator) :
    (s.setGenerators g1 g2).regs = s.regs := rfl
@[simp] theorem State.setGenerators_params (s : State) (g1 g2 : Generator) :
    (s.setGenerators g1 g2).params = s.params := rfl
@[simp] theorem State.setGenerators_inputs (s : State) (g1 g2 : Generator) :
    (s.setGenerators g1 g2).inputs = s.inputs := rfl
@[simp] theorem State.setGenerators_replies (s : State) (g1 g2 : Generator) :
    (s.setGenerators g1 g2).replies = s.replies := rfl

/-! ### `stepGenerators` -/

@[simp] theorem State.stepGenerators_gen1 (s : State) :
    (s.stepGenerators).gen1 = prgaStep s.gen1 := rfl
@[simp] theorem State.stepGenerators_gen2 (s : State) :
    (s.stepGenerators).gen2 = prgaStep s.gen2 := rfl
@[simp] theorem State.stepGenerators_lstate (s : State) :
    (s.stepGenerators).lstate = s.lstate := rfl
@[simp] theorem State.stepGenerators_keyRam (s : State) :
    (s.stepGenerators).keyRam = s.keyRam := rfl
@[simp] theorem State.stepGenerators_dmem (s : State) :
    (s.stepGenerators).dmem = s.dmem := rfl
@[simp] theorem State.stepGenerators_dmemInit (s : State) :
    (s.stepGenerators).dmemInit = s.dmemInit := rfl
@[simp] theorem State.stepGenerators_busy (s : State) :
    (s.stepGenerators).busy = s.busy := rfl
@[simp] theorem State.stepGenerators_err (s : State) :
    (s.stepGenerators).err = s.err := rfl
@[simp] theorem State.stepGenerators_result (s : State) :
    (s.stepGenerators).result = s.result := rfl
@[simp] theorem State.stepGenerators_cmdLatch (s : State) :
    (s.stepGenerators).cmdLatch = s.cmdLatch := rfl
@[simp] theorem State.stepGenerators_regs (s : State) :
    (s.stepGenerators).regs = s.regs := rfl
@[simp] theorem State.stepGenerators_params (s : State) :
    (s.stepGenerators).params = s.params := rfl
@[simp] theorem State.stepGenerators_inputs (s : State) :
    (s.stepGenerators).inputs = s.inputs := rfl
@[simp] theorem State.stepGenerators_replies (s : State) :
    (s.stepGenerators).replies = s.replies := rfl

/-! ### `setLState` -/

@[simp] theorem State.setLState_gen1 (s : State) (l : LState) :
    (s.setLState l).gen1 = s.gen1 := rfl
@[simp] theorem State.setLState_gen2 (s : State) (l : LState) :
    (s.setLState l).gen2 = s.gen2 := rfl
@[simp] theorem State.setLState_lstate (s : State) (l : LState) :
    (s.setLState l).lstate = l := rfl
@[simp] theorem State.setLState_keyRam (s : State) (l : LState) :
    (s.setLState l).keyRam = s.keyRam := rfl
@[simp] theorem State.setLState_dmem (s : State) (l : LState) :
    (s.setLState l).dmem = s.dmem := rfl
@[simp] theorem State.setLState_dmemInit (s : State) (l : LState) :
    (s.setLState l).dmemInit = s.dmemInit := rfl
@[simp] theorem State.setLState_busy (s : State) (l : LState) :
    (s.setLState l).busy = s.busy := rfl
@[simp] theorem State.setLState_err (s : State) (l : LState) :
    (s.setLState l).err = s.err := rfl
@[simp] theorem State.setLState_result (s : State) (l : LState) :
    (s.setLState l).result = s.result := rfl
@[simp] theorem State.setLState_cmdLatch (s : State) (l : LState) :
    (s.setLState l).cmdLatch = s.cmdLatch := rfl
@[simp] theorem State.setLState_regs (s : State) (l : LState) :
    (s.setLState l).regs = s.regs := rfl
@[simp] theorem State.setLState_params (s : State) (l : LState) :
    (s.setLState l).params = s.params := rfl
@[simp] theorem State.setLState_inputs (s : State) (l : LState) :
    (s.setLState l).inputs = s.inputs := rfl
@[simp] theorem State.setLState_replies (s : State) (l : LState) :
    (s.setLState l).replies = s.replies := rfl

/-! ### `setRegs` -/

@[simp] theorem State.setRegs_gen1 (s : State) (r : HostRegs) :
    (s.setRegs r).gen1 = s.gen1 := rfl
@[simp] theorem State.setRegs_gen2 (s : State) (r : HostRegs) :
    (s.setRegs r).gen2 = s.gen2 := rfl
@[simp] theorem State.setRegs_lstate (s : State) (r : HostRegs) :
    (s.setRegs r).lstate = s.lstate := rfl
@[simp] theorem State.setRegs_keyRam (s : State) (r : HostRegs) :
    (s.setRegs r).keyRam = s.keyRam := rfl
@[simp] theorem State.setRegs_dmem (s : State) (r : HostRegs) :
    (s.setRegs r).dmem = s.dmem := rfl
@[simp] theorem State.setRegs_dmemInit (s : State) (r : HostRegs) :
    (s.setRegs r).dmemInit = s.dmemInit := rfl
@[simp] theorem State.setRegs_busy (s : State) (r : HostRegs) :
    (s.setRegs r).busy = s.busy := rfl
@[simp] theorem State.setRegs_err (s : State) (r : HostRegs) :
    (s.setRegs r).err = s.err := rfl
@[simp] theorem State.setRegs_result (s : State) (r : HostRegs) :
    (s.setRegs r).result = s.result := rfl
@[simp] theorem State.setRegs_cmdLatch (s : State) (r : HostRegs) :
    (s.setRegs r).cmdLatch = s.cmdLatch := rfl
@[simp] theorem State.setRegs_regs (s : State) (r : HostRegs) :
    (s.setRegs r).regs = r := rfl
@[simp] theorem State.setRegs_params (s : State) (r : HostRegs) :
    (s.setRegs r).params = s.params := rfl
@[simp] theorem State.setRegs_inputs (s : State) (r : HostRegs) :
    (s.setRegs r).inputs = s.inputs := rfl
@[simp] theorem State.setRegs_replies (s : State) (r : HostRegs) :
    (s.setRegs r).replies = s.replies := rfl

/-! ### `acceptCommand` -/

@[simp] theorem State.acceptCommand_gen1 (s : State) (w : Word) :
    (s.acceptCommand w).gen1 = s.gen1 := rfl
@[simp] theorem State.acceptCommand_gen2 (s : State) (w : Word) :
    (s.acceptCommand w).gen2 = s.gen2 := rfl
@[simp] theorem State.acceptCommand_lstate (s : State) (w : Word) :
    (s.acceptCommand w).lstate = s.lstate := rfl
@[simp] theorem State.acceptCommand_keyRam (s : State) (w : Word) :
    (s.acceptCommand w).keyRam = s.keyRam := rfl
@[simp] theorem State.acceptCommand_dmem (s : State) (w : Word) :
    (s.acceptCommand w).dmem = s.dmem := rfl
@[simp] theorem State.acceptCommand_dmemInit (s : State) (w : Word) :
    (s.acceptCommand w).dmemInit = s.dmemInit := rfl
@[simp] theorem State.acceptCommand_busy (s : State) (w : Word) :
    (s.acceptCommand w).busy = true := rfl
@[simp] theorem State.acceptCommand_err (s : State) (w : Word) :
    (s.acceptCommand w).err = s.err := rfl
@[simp] theorem State.acceptCommand_result (s : State) (w : Word) :
    (s.acceptCommand w).result = s.result := rfl
@[simp] theorem State.acceptCommand_cmdLatch (s : State) (w : Word) :
    (s.acceptCommand w).cmdLatch = w := rfl
@[simp] theorem State.acceptCommand_regs (s : State) (w : Word) :
    (s.acceptCommand w).regs = s.regs := rfl
@[simp] theorem State.acceptCommand_params (s : State) (w : Word) :
    (s.acceptCommand w).params = s.params := rfl
@[simp] theorem State.acceptCommand_inputs (s : State) (w : Word) :
    (s.acceptCommand w).inputs = s.inputs := rfl
@[simp] theorem State.acceptCommand_replies (s : State) (w : Word) :
    (s.acceptCommand w).replies = s.replies := rfl

/-! ### `clearBusy` -/

@[simp] theorem State.clearBusy_gen1 (s : State) :
    (s.clearBusy).gen1 = s.gen1 := rfl
@[simp] theorem State.clearBusy_gen2 (s : State) :
    (s.clearBusy).gen2 = s.gen2 := rfl
@[simp] theorem State.clearBusy_lstate (s : State) :
    (s.clearBusy).lstate = s.lstate := rfl
@[simp] theorem State.clearBusy_keyRam (s : State) :
    (s.clearBusy).keyRam = s.keyRam := rfl
@[simp] theorem State.clearBusy_dmem (s : State) :
    (s.clearBusy).dmem = s.dmem := rfl
@[simp] theorem State.clearBusy_dmemInit (s : State) :
    (s.clearBusy).dmemInit = s.dmemInit := rfl
@[simp] theorem State.clearBusy_busy (s : State) :
    (s.clearBusy).busy = false := rfl
@[simp] theorem State.clearBusy_err (s : State) :
    (s.clearBusy).err = s.err := rfl
@[simp] theorem State.clearBusy_result (s : State) :
    (s.clearBusy).result = s.result := rfl
@[simp] theorem State.clearBusy_cmdLatch (s : State) :
    (s.clearBusy).cmdLatch = s.cmdLatch := rfl
@[simp] theorem State.clearBusy_regs (s : State) :
    (s.clearBusy).regs = s.regs := rfl
@[simp] theorem State.clearBusy_params (s : State) :
    (s.clearBusy).params = s.params := rfl
@[simp] theorem State.clearBusy_inputs (s : State) :
    (s.clearBusy).inputs = s.inputs := rfl
@[simp] theorem State.clearBusy_replies (s : State) :
    (s.clearBusy).replies = s.replies := rfl

/-! ### `raiseError` -/

@[simp] theorem State.raiseError_gen1 (s : State) (e : ErrCode) :
    (s.raiseError e).gen1 = s.gen1 := rfl
@[simp] theorem State.raiseError_gen2 (s : State) (e : ErrCode) :
    (s.raiseError e).gen2 = s.gen2 := rfl
@[simp] theorem State.raiseError_lstate (s : State) (e : ErrCode) :
    (s.raiseError e).lstate = s.lstate := rfl
@[simp] theorem State.raiseError_keyRam (s : State) (e : ErrCode) :
    (s.raiseError e).keyRam = s.keyRam := rfl
@[simp] theorem State.raiseError_dmem (s : State) (e : ErrCode) :
    (s.raiseError e).dmem = s.dmem := rfl
@[simp] theorem State.raiseError_dmemInit (s : State) (e : ErrCode) :
    (s.raiseError e).dmemInit = s.dmemInit := rfl
@[simp] theorem State.raiseError_busy (s : State) (e : ErrCode) :
    (s.raiseError e).busy = s.busy := rfl
@[simp] theorem State.raiseError_err (s : State) (e : ErrCode) :
    (s.raiseError e).err = e := rfl
@[simp] theorem State.raiseError_result (s : State) (e : ErrCode) :
    (s.raiseError e).result = 0 := rfl
@[simp] theorem State.raiseError_cmdLatch (s : State) (e : ErrCode) :
    (s.raiseError e).cmdLatch = s.cmdLatch := rfl
@[simp] theorem State.raiseError_regs (s : State) (e : ErrCode) :
    (s.raiseError e).regs = s.regs := rfl
@[simp] theorem State.raiseError_params (s : State) (e : ErrCode) :
    (s.raiseError e).params = s.params := rfl
@[simp] theorem State.raiseError_inputs (s : State) (e : ErrCode) :
    (s.raiseError e).inputs = s.inputs := rfl
@[simp] theorem State.raiseError_replies (s : State) (e : ErrCode) :
    (s.raiseError e).replies = s.replies := rfl

/-! ### `succeed` -/

@[simp] theorem State.succeed_gen1 (s : State) (v : Word) :
    (s.succeed v).gen1 = s.gen1 := rfl
@[simp] theorem State.succeed_gen2 (s : State) (v : Word) :
    (s.succeed v).gen2 = s.gen2 := rfl
@[simp] theorem State.succeed_lstate (s : State) (v : Word) :
    (s.succeed v).lstate = s.lstate := rfl
@[simp] theorem State.succeed_keyRam (s : State) (v : Word) :
    (s.succeed v).keyRam = s.keyRam := rfl
@[simp] theorem State.succeed_dmem (s : State) (v : Word) :
    (s.succeed v).dmem = s.dmem := rfl
@[simp] theorem State.succeed_dmemInit (s : State) (v : Word) :
    (s.succeed v).dmemInit = s.dmemInit := rfl
@[simp] theorem State.succeed_busy (s : State) (v : Word) :
    (s.succeed v).busy = s.busy := rfl
@[simp] theorem State.succeed_err (s : State) (v : Word) :
    (s.succeed v).err = .none := rfl
@[simp] theorem State.succeed_result (s : State) (v : Word) :
    (s.succeed v).result = v := rfl
@[simp] theorem State.succeed_cmdLatch (s : State) (v : Word) :
    (s.succeed v).cmdLatch = s.cmdLatch := rfl
@[simp] theorem State.succeed_regs (s : State) (v : Word) :
    (s.succeed v).regs = s.regs := rfl
@[simp] theorem State.succeed_params (s : State) (v : Word) :
    (s.succeed v).params = s.params := rfl
@[simp] theorem State.succeed_inputs (s : State) (v : Word) :
    (s.succeed v).inputs = s.inputs := rfl
@[simp] theorem State.succeed_replies (s : State) (v : Word) :
    (s.succeed v).replies = s.replies := rfl

/-! ### `answer` -/

@[simp] theorem State.answer_gen1 (s : State) (v : Word) :
    (s.answer v).gen1 = s.gen1 := rfl
@[simp] theorem State.answer_gen2 (s : State) (v : Word) :
    (s.answer v).gen2 = s.gen2 := rfl
@[simp] theorem State.answer_lstate (s : State) (v : Word) :
    (s.answer v).lstate = s.lstate := rfl
@[simp] theorem State.answer_keyRam (s : State) (v : Word) :
    (s.answer v).keyRam = s.keyRam := rfl
@[simp] theorem State.answer_dmem (s : State) (v : Word) :
    (s.answer v).dmem = s.dmem := rfl
@[simp] theorem State.answer_dmemInit (s : State) (v : Word) :
    (s.answer v).dmemInit = s.dmemInit := rfl
@[simp] theorem State.answer_busy (s : State) (v : Word) :
    (s.answer v).busy = s.busy := rfl
@[simp] theorem State.answer_err (s : State) (v : Word) :
    (s.answer v).err = s.err := rfl
@[simp] theorem State.answer_result (s : State) (v : Word) :
    (s.answer v).result = s.result := rfl
@[simp] theorem State.answer_cmdLatch (s : State) (v : Word) :
    (s.answer v).cmdLatch = s.cmdLatch := rfl
@[simp] theorem State.answer_regs (s : State) (v : Word) :
    (s.answer v).regs = s.regs := rfl
@[simp] theorem State.answer_params (s : State) (v : Word) :
    (s.answer v).params = s.params := rfl
@[simp] theorem State.answer_inputs (s : State) (v : Word) :
    (s.answer v).inputs = s.inputs := rfl
@[simp] theorem State.answer_replies (s : State) (v : Word) :
    (s.answer v).replies = s.replies ++ [v] := rfl

/-! ### `setInputs` -/

@[simp] theorem State.setInputs_gen1 (s : State) (is : List Input) :
    (s.setInputs is).gen1 = s.gen1 := rfl
@[simp] theorem State.setInputs_gen2 (s : State) (is : List Input) :
    (s.setInputs is).gen2 = s.gen2 := rfl
@[simp] theorem State.setInputs_lstate (s : State) (is : List Input) :
    (s.setInputs is).lstate = s.lstate := rfl
@[simp] theorem State.setInputs_keyRam (s : State) (is : List Input) :
    (s.setInputs is).keyRam = s.keyRam := rfl
@[simp] theorem State.setInputs_dmem (s : State) (is : List Input) :
    (s.setInputs is).dmem = s.dmem := rfl
@[simp] theorem State.setInputs_dmemInit (s : State) (is : List Input) :
    (s.setInputs is).dmemInit = s.dmemInit := rfl
@[simp] theorem State.setInputs_busy (s : State) (is : List Input) :
    (s.setInputs is).busy = s.busy := rfl
@[simp] theorem State.setInputs_err (s : State) (is : List Input) :
    (s.setInputs is).err = s.err := rfl
@[simp] theorem State.setInputs_result (s : State) (is : List Input) :
    (s.setInputs is).result = s.result := rfl
@[simp] theorem State.setInputs_cmdLatch (s : State) (is : List Input) :
    (s.setInputs is).cmdLatch = s.cmdLatch := rfl
@[simp] theorem State.setInputs_regs (s : State) (is : List Input) :
    (s.setInputs is).regs = s.regs := rfl
@[simp] theorem State.setInputs_params (s : State) (is : List Input) :
    (s.setInputs is).params = s.params := rfl
@[simp] theorem State.setInputs_inputs (s : State) (is : List Input) :
    (s.setInputs is).inputs = is := rfl
@[simp] theorem State.setInputs_replies (s : State) (is : List Input) :
    (s.setInputs is).replies = s.replies := rfl

/-! ### `construct` -/

@[simp] theorem State.construct_gen1 (s : State) (n : Nonce) :
    (s.construct n).gen1 = s.keyedGenerator n := by simp [State.construct]
@[simp] theorem State.construct_gen2 (s : State) (n : Nonce) :
    (s.construct n).gen2 = s.keyedGenerator (deriveNonce2 n) := by simp [State.construct]
@[simp] theorem State.construct_lstate (s : State) (n : Nonce) :
    (s.construct n).lstate = .ready := by simp [State.construct]
@[simp] theorem State.construct_keyRam (s : State) (n : Nonce) :
    (s.construct n).keyRam = s.keyRam := by simp [State.construct]
@[simp] theorem State.construct_dmem (s : State) (n : Nonce) :
    (s.construct n).dmem = s.dmem := by simp [State.construct]
@[simp] theorem State.construct_dmemInit (s : State) (n : Nonce) :
    (s.construct n).dmemInit = s.dmemInit := by simp [State.construct]
@[simp] theorem State.construct_busy (s : State) (n : Nonce) :
    (s.construct n).busy = s.busy := by simp [State.construct]
@[simp] theorem State.construct_err (s : State) (n : Nonce) :
    (s.construct n).err = .none := by simp [State.construct]
@[simp] theorem State.construct_result (s : State) (n : Nonce) :
    (s.construct n).result = 0 := by simp [State.construct]
@[simp] theorem State.construct_cmdLatch (s : State) (n : Nonce) :
    (s.construct n).cmdLatch = s.cmdLatch := by simp [State.construct]
@[simp] theorem State.construct_regs (s : State) (n : Nonce) :
    (s.construct n).regs = s.regs := by simp [State.construct]
@[simp] theorem State.construct_params (s : State) (n : Nonce) :
    (s.construct n).params = s.params := by simp [State.construct]
@[simp] theorem State.construct_inputs (s : State) (n : Nonce) :
    (s.construct n).inputs = s.inputs := by simp [State.construct]
@[simp] theorem State.construct_replies (s : State) (n : Nonce) :
    (s.construct n).replies = s.replies := by simp [State.construct]

/-! ### `afterReset` (10_state.md rule R43) -/

@[simp] theorem State.afterReset_gen1 (p : Params) (d : List Byte) :
    (State.afterReset p d).gen1 = Generator.zero := rfl
@[simp] theorem State.afterReset_gen2 (p : Params) (d : List Byte) :
    (State.afterReset p d).gen2 = Generator.zero := rfl
@[simp] theorem State.afterReset_lstate (p : Params) (d : List Byte) :
    (State.afterReset p d).lstate = .uninitialized := rfl
@[simp] theorem State.afterReset_keyRam (p : Params) (d : List Byte) :
    (State.afterReset p d).keyRam = zeroTable := rfl
@[simp] theorem State.afterReset_dmem (p : Params) (d : List Byte) :
    (State.afterReset p d).dmem = [] := rfl
@[simp] theorem State.afterReset_dmemInit (p : Params) (d : List Byte) :
    (State.afterReset p d).dmemInit = d := rfl
@[simp] theorem State.afterReset_busy (p : Params) (d : List Byte) :
    (State.afterReset p d).busy = false := rfl
@[simp] theorem State.afterReset_err (p : Params) (d : List Byte) :
    (State.afterReset p d).err = .none := rfl
@[simp] theorem State.afterReset_result (p : Params) (d : List Byte) :
    (State.afterReset p d).result = 0 := rfl
@[simp] theorem State.afterReset_cmdLatch (p : Params) (d : List Byte) :
    (State.afterReset p d).cmdLatch = 0 := rfl
@[simp] theorem State.afterReset_regs (p : Params) (d : List Byte) :
    (State.afterReset p d).regs = HostRegs.zero := rfl
@[simp] theorem State.afterReset_params (p : Params) (d : List Byte) :
    (State.afterReset p d).params = p := rfl
@[simp] theorem State.afterReset_inputs (p : Params) (d : List Byte) :
    (State.afterReset p d).inputs = [] := rfl
@[simp] theorem State.afterReset_replies (p : Params) (d : List Byte) :
    (State.afterReset p d).replies = [] := rfl

end Sys2Proof.Machine
end

