-- ==== Sys2Proof/Laws/Transform.lean ====
section
/-! SUPPORT. What the datapath loop does (43_transform.md rule R173): its frame, its generators, and the
byte every position stores; and what the transforms' checks accept (R170, R171, R212). -/

namespace Sys2Proof.Machine

variable (ob oo : Nat) (s : State)

/-- The loop writes DMEM and the generators, and nothing else. -/
theorem xorStream_eq (n : Nat) :
    xorStream ob oo s n = { s with
      gen1 := prgaSteps s.gen1 n
      gen2 := prgaSteps s.gen2 n
      dmem := (xorStream ob oo s n).dmem } := by
  induction n with
  | zero => rfl
  | succ n ih =>
    conv_lhs => rw [xorStream, ih]
    conv_rhs => rw [xorStream, ih]
    rfl

@[simp] theorem xorStream_gen1 (n : Nat) :
    (xorStream ob oo s n).gen1 = prgaSteps s.gen1 n := by rw [xorStream_eq]
@[simp] theorem xorStream_gen2 (n : Nat) :
    (xorStream ob oo s n).gen2 = prgaSteps s.gen2 n := by rw [xorStream_eq]
@[simp] theorem xorStream_lstate (n : Nat) :
    (xorStream ob oo s n).lstate = s.lstate := by rw [xorStream_eq]
@[simp] theorem xorStream_keyRam (n : Nat) :
    (xorStream ob oo s n).keyRam = s.keyRam := by rw [xorStream_eq]
@[simp] theorem xorStream_dmemInit (n : Nat) :
    (xorStream ob oo s n).dmemInit = s.dmemInit := by rw [xorStream_eq]
@[simp] theorem xorStream_busy (n : Nat) :
    (xorStream ob oo s n).busy = s.busy := by rw [xorStream_eq]
@[simp] theorem xorStream_err (n : Nat) :
    (xorStream ob oo s n).err = s.err := by rw [xorStream_eq]
@[simp] theorem xorStream_result (n : Nat) :
    (xorStream ob oo s n).result = s.result := by rw [xorStream_eq]
@[simp] theorem xorStream_cmdLatch (n : Nat) :
    (xorStream ob oo s n).cmdLatch = s.cmdLatch := by rw [xorStream_eq]
@[simp] theorem xorStream_regs (n : Nat) :
    (xorStream ob oo s n).regs = s.regs := by rw [xorStream_eq]
@[simp] theorem xorStream_params (n : Nat) :
    (xorStream ob oo s n).params = s.params := by rw [xorStream_eq]
@[simp] theorem xorStream_inputs (n : Nat) :
    (xorStream ob oo s n).inputs = s.inputs := by rw [xorStream_eq]
@[simp] theorem xorStream_replies (n : Nat) :
    (xorStream ob oo s n).replies = s.replies := by rw [xorStream_eq]

/-- Reading DMEM after a write to it. -/
theorem State.memRead_memWrite {s : State} (h : Memory.wf s.dmemInit s.dmem) (a b : Nat) (v : Byte) :
    (s.memWrite a v).memRead b = if b = a then v else s.memRead b := Memory.read_write h.1

/-- A DMEM write keeps DMEM canonical. -/
theorem State.memWrite_wf {s : State} (h : Memory.wf s.dmemInit s.dmem) (a : Nat) (v : Byte) :
    Memory.wf (s.memWrite a v).dmemInit (s.memWrite a v).dmem := Memory.write_wf h

/-- Stepping the generators reads no differently from DMEM. -/
@[simp] theorem State.memRead_stepGenerators (s : State) (a : Nat) :
    s.stepGenerators.memRead a = s.memRead a := rfl

/-- The loop keeps DMEM canonical. -/
theorem xorStream_wf {s : State} (h : Memory.wf s.dmemInit s.dmem) (n : Nat) :
    Memory.wf s.dmemInit (xorStream ob oo s n).dmem := by
  induction n with
  | zero => exact h
  | succ n ih =>
    have := State.memWrite_wf (s := (xorStream ob oo s n).stepGenerators)
      (by simpa using ih) (outAddr ob oo n)
      ((xorStream ob oo s n).memRead (s.inAddr n) ^^^ (xorStream ob oo s n).combinedByte)
    simpa [xorStream, xorPosition] using this

/-- One more position: the stored byte at its output address, everything else as before. -/
theorem memRead_xorStream_succ {s : State} (h : Memory.wf s.dmemInit s.dmem) (n a : Nat) :
    (xorStream ob oo s (n + 1)).memRead a =
      if a = outAddr ob oo n then
        (xorStream ob oo s n).memRead (s.inAddr n) ^^^ keystream s.gen1 s.gen2 n
      else (xorStream ob oo s n).memRead a := by
  rw [xorStream, xorPosition, State.memRead_memWrite (by simpa using xorStream_wf ob oo h n)]
  simp [State.combinedByte, keystream, prgaSteps]

/-- A byte no position stores to reads as before. -/
theorem memRead_xorStream_of_ne {s : State} (h : Memory.wf s.dmemInit s.dmem) {n a : Nat}
    (ha : ∀ i, i < n → a ≠ outAddr ob oo i) :
    (xorStream ob oo s n).memRead a = s.memRead a := by
  induction n with
  | zero => rfl
  | succ n ih =>
    rw [memRead_xorStream_succ _ _ h, if_neg (ha n (by omega)), ih fun i hi => ha i (by omega)]

/-- Output byte `i` is what position `i` read, XOR its combined byte. -/
theorem memRead_xorStream_out {s : State} (h : Memory.wf s.dmemInit s.dmem) {n i : Nat} (hi : i < n) :
    (xorStream ob oo s n).memRead (outAddr ob oo i) =
      (xorStream ob oo s i).memRead (s.inAddr i) ^^^ keystream s.gen1 s.gen2 i := by
  induction n with
  | zero => omega
  | succ n ih =>
    rw [memRead_xorStream_succ _ _ h]
    by_cases e : i = n
    · subst e
      rw [if_pos rfl]
    · rw [if_neg (by simp [outAddr]; omega), ih (by omega)]

/-- What position `i` reads: the byte an earlier position of the command stored there, if one did, and
otherwise the byte that stood there before the command (43_transform.md rule R173). -/
theorem memRead_xorStream_in {s : State} (h : Memory.wf s.dmemInit s.dmem) {n i : Nat} (hi : i < n) :
    (xorStream ob oo s i).memRead (s.inAddr i) =
      if outAddr ob oo 0 ≤ s.inAddr i ∧ s.inAddr i < outAddr ob oo i then
        (xorStream ob oo s n).memRead (s.inAddr i)
      else s.memRead (s.inAddr i) := by
  split
  · next hc =>
    obtain ⟨j, hj, e⟩ : ∃ j, j < i ∧ s.inAddr i = outAddr ob oo j :=
      ⟨s.inAddr i - (ob + oo), by simp only [outAddr] at *; omega, by simp only [outAddr] at *; omega⟩
    rw [e, memRead_xorStream_out _ _ h hj, memRead_xorStream_out _ _ h (by omega)]
  · next hc =>
    refine memRead_xorStream_of_ne _ _ h fun j hj e => hc ?_
    simp only [outAddr] at *
    omega

/-- The loop lists only offsets below `size` when its output addresses are below it. -/
theorem xorStream_inside {s : State} {size : Nat} (h : Memory.inside size s.dmem) {n : Nat}
    (ho : ∀ i, i < n → outAddr ob oo i < size) : Memory.inside size (xorStream ob oo s n).dmem := by
  induction n with
  | zero => exact h
  | succ n ih =>
    rw [xorStream, xorPosition]
    exact Memory.write_inside (ih fun i hi => ho i (by omega)) (ho n (by omega))

/-- A buffer fits in DMEM (R170). -/
theorem Descriptor.fits_eq_true {d : Descriptor} {size : Nat} :
    d.fits size = true ↔ d.base + d.length ≤ size := decide_eq_true_iff

/-- A buffer runs past the end of DMEM. -/
theorem Descriptor.fits_eq_false {d : Descriptor} {size : Nat} :
    d.fits size = false ↔ size < d.base + d.length := by simp [Descriptor.fits]

/-- A slice lies in its buffer (R170). -/
theorem Descriptor.holds_eq_true {d : Descriptor} {off count : Nat} :
    d.holds off count = true ↔ off + count ≤ d.length := decide_eq_true_iff

/-- A slice runs past the end of its buffer. -/
theorem Descriptor.holds_eq_false {d : Descriptor} {off count : Nat} :
    d.holds off count = false ↔ d.length < off + count := by simp [Descriptor.holds]

/-- CheckLifecycle accepts exactly READY. -/
theorem checkLifecycle_eq_none : s.checkLifecycle = none ↔ s.lstate = .ready := by
  unfold State.checkLifecycle
  cases s.lstate <;> simp

/-- ValidateTransform accepts exactly these operands. -/
theorem validateTransform_eq_none : s.validateTransform = none ↔
    (s.regs.argf[0] = true ∧ s.regs.argf[1] = true) ∧
    (s.regs.inBase.toNat + s.regs.inLen.toNat ≤ s.params.dmemSize ∧
      s.regs.outBase.toNat + s.regs.outLen.toNat ≤ s.params.dmemSize) ∧
    s.regs.inOff.toNat + s.regs.count.toNat ≤ s.regs.inLen.toNat ∧
    s.regs.outOff.toNat + s.regs.count.toNat ≤ s.regs.outLen.toNat := by
  unfold State.validateTransform
  simp only [Descriptor.fits, Descriptor.holds, decide_eq_false_iff_not]
  split
  · next h => simp only [reduceCtorEq, false_iff]; rintro ⟨⟨h1, h2⟩, -⟩; simp [State.inPresent, State.outPresent, h1, h2] at h
  · next h1 =>
    simp only [not_or, Bool.not_eq_false] at h1
    split
    · next h =>
      simp only [State.inBuffer, State.outBuffer] at h
      simp only [reduceCtorEq, false_iff]; omega
    · next h2 =>
      simp only [State.inBuffer, State.outBuffer] at h2
      split
      · next h =>
        simp only [State.inBuffer, State.outBuffer, State.inOffset, State.outOffset, State.countOf] at h
        simp only [reduceCtorEq, false_iff]; omega
      · next h3 =>
        simp only [State.inBuffer, State.outBuffer, State.inOffset, State.outOffset, State.countOf] at h3
        simp only [true_iff]
        exact ⟨h1, by omega, by omega⟩

/-- ValidateTransformFinal accepts exactly these operands. -/
theorem validateTransformFinal_eq_none : s.validateTransformFinal = none ↔
    s.regs.argf[0] = true ∧
    s.regs.inBase.toNat + s.regs.inLen.toNat ≤ s.params.dmemSize ∧
    s.regs.outBase.toNat + s.regs.count.toNat ≤ s.params.dmemSize ∧
    s.regs.inOff.toNat + s.regs.count.toNat ≤ s.regs.inLen.toNat := by
  unfold State.validateTransformFinal
  simp only [Descriptor.fits, Descriptor.holds, decide_eq_false_iff_not]
  split
  · next h => simp only [State.inPresent] at h; simp [h]
  · next h0 =>
    simp only [State.inPresent, Bool.not_eq_false] at h0
    split
    · next h => simp only [State.inBuffer] at h; simp only [reduceCtorEq, false_iff]; omega
    · next h1 =>
      simp only [State.inBuffer] at h1
      split
      · next h => simp only [State.freshBuffer] at h; simp only [reduceCtorEq, false_iff]; omega
      · next h2 =>
        simp only [State.freshBuffer] at h2
        split
        · next h =>
          simp only [State.inBuffer, State.inOffset, State.countOf] at h
          simp only [reduceCtorEq, false_iff]; omega
        · next h3 =>
          simp only [State.inBuffer, State.inOffset, State.countOf] at h3
          simp only [true_iff]
          exact ⟨h0, by omega, by omega, by omega⟩

/-- The checks of one of the two transforms, in their order. -/
def transformCheck (final : Bool) (s : State) : Option ErrCode :=
  s.checkLifecycle.or (if final then s.validateTransformFinal else s.validateTransform)

/-- TRANSFORM runs exactly on these operands (R170, R212). -/
theorem transformCheck_false_eq_none : transformCheck false s = none ↔
    s.lstate = .ready ∧ (s.regs.argf[0] = true ∧ s.regs.argf[1] = true) ∧
    (s.regs.inBase.toNat + s.regs.inLen.toNat ≤ s.params.dmemSize ∧
      s.regs.outBase.toNat + s.regs.outLen.toNat ≤ s.params.dmemSize) ∧
    s.regs.inOff.toNat + s.regs.count.toNat ≤ s.regs.inLen.toNat ∧
    s.regs.outOff.toNat + s.regs.count.toNat ≤ s.regs.outLen.toNat := by
  rw [← validateTransform_eq_none, ← checkLifecycle_eq_none]
  simp [transformCheck, Option.or_eq_none_iff]

/-- TRANSFORM_FINAL runs exactly on these operands (R171, R212). -/
theorem transformCheck_true_eq_none : transformCheck true s = none ↔
    s.lstate = .ready ∧ s.regs.argf[0] = true ∧
    s.regs.inBase.toNat + s.regs.inLen.toNat ≤ s.params.dmemSize ∧
    s.regs.outBase.toNat + s.regs.count.toNat ≤ s.params.dmemSize ∧
    s.regs.inOff.toNat + s.regs.count.toNat ≤ s.regs.inLen.toNat := by
  rw [← validateTransformFinal_eq_none, ← checkLifecycle_eq_none]
  simp [transformCheck, Option.or_eq_none_iff]

/-- The state after the datapath loop of one of the two transforms. -/
def transformed (final : Bool) (s : State) : State :=
  if final then xorStream s.freshBuffer.base 0 s s.countOf
  else xorStream s.outBuffer.base s.outOffset s s.countOf

/-- The loop of either transform keeps DMEM canonical. -/
theorem transformed_wf {s : State} (h : Memory.wf s.dmemInit s.dmem) (final : Bool) :
    Memory.wf s.dmemInit (transformed final s).dmem := by
  cases final <;> exact xorStream_wf _ _ h _

/-- The two transforms have one meaning: the checks, then the loop, then RESULT = COUNT. -/
theorem exec_transformInstr (final : Bool) (s : State) :
    exec (transformInstr final) s =
      .next (s.unlessError (transformCheck final s) ((transformed final s).succeed s.regs.count)) := by
  cases final <;> rfl

/-- A transform's checks give one of the codes R211 lists, and never NONE. -/
theorem transformCheck_codes {final : Bool} {s : State} {e : ErrCode} (h : transformCheck final s = some e) :
    (s.lstate = .disposed ∧ e = .disposed) ∨ (s.lstate = .uninitialized ∧ e = .notReady) ∨
    (s.lstate = .ready ∧ (e = .invalidArgument ∨ e = .outOfRange)) := by
  unfold transformCheck State.checkLifecycle at h
  cases hl : s.lstate
  · simp [hl] at h; simp [h]
  · simp only [hl, Option.none_or] at h
    cases final
    · simp only [State.validateTransform, Bool.false_eq_true, if_false] at h
      split at h
      · simp at h; simp [← h]
      · split at h
        · simp at h; simp [← h]
        · split at h
          · simp at h; simp [← h]
          · simp at h
    · simp only [State.validateTransformFinal, if_true] at h
      split at h
      · simp at h; simp [← h]
      · split at h
        · simp at h; simp [← h]
        · split at h
          · simp at h; simp [← h]
          · split at h
            · simp at h; simp [← h]
            · simp at h
  · simp [hl] at h; simp [h]

end Sys2Proof.Machine
end

