-- ==== Sys2Proof/Laws/Exec.lean ====
section
/-! SUPPORT. What a command can do, said once: the inversion of `exec`, of the completion of a command
and of its check, which later proofs cite instead of unfolding the meanings. -/

namespace Sys2Proof.Machine

@[simp] theorem State.unlessError_some (s b : State) (e : ErrCode) :
    s.unlessError (some e) b = s.raiseError e := rfl
@[simp] theorem State.unlessError_none (s b : State) : s.unlessError none b = b := rfl

@[simp] theorem onNext_next (f : State → State) (s : State) : onNext f (.next s) = .next (f s) := rfl

/-- The check of a construction: ValidateConstruction (44_lifecycle.md rule R191). -/
def constructCheck (i : Instr) (s : State) : Option ErrCode :=
  match i with
  | .init => s.validateKey.or s.validateNonceLen
  | .initSeed => s.validateKey
  | .transform => none
  | .transformFinal => none
  | .dispose => none

/-- The key check passes. -/
theorem State.validateKey_none {s : State} (h : s.regs.keylen ≠ 0) : s.validateKey = none := if_neg h

/-- The key check refuses an empty key. -/
theorem State.validateKey_some {s : State} (h : s.regs.keylen = 0) :
    s.validateKey = some .invalidArgument := if_pos h

/-- The nonce check passes. -/
theorem State.validateNonceLen_none {s : State} (h : s.regs.nonceLen = 4) :
    s.validateNonceLen = none := if_pos h

/-- The nonce check refuses a nonce that is not 4 bytes. -/
theorem State.validateNonceLen_some {s : State} (h : s.regs.nonceLen ≠ 4) :
    s.validateNonceLen = some .invalidArgument := if_neg h

/-- Both constructors have one meaning: the check, then Construct (R192). -/
theorem exec_construct {i : Instr} (h : i = .init ∨ i = .initSeed) (s : State) :
    exec i s = .next (s.unlessError (constructCheck i s)
      (s.construct (nonceOfWord s.regs.nonce))) := by
  rcases h with rfl | rfl <;> rfl

/-- A construction's check raises INVALID_ARGUMENT or nothing. -/
theorem constructCheck_codes {i : Instr} {s : State} {e : ErrCode} (h : constructCheck i s = some e) :
    e = .invalidArgument := by
  cases i <;>
    simp only [constructCheck, State.validateKey, State.validateNonceLen, reduceCtorEq] at h
  · split at h
    · simpa using h.symm
    · split at h <;> simp at h
      exact h.symm
  · split at h <;> simp at h
    exact h.symm

/-- What a DISPOSE leaves (R196). -/
def disposed (s : State) : State :=
  ((s.setGenerators Generator.zero Generator.zero).clearKey.setLState .disposed).succeed 0

/-- DISPOSE has no check. -/
theorem exec_dispose (s : State) : exec .dispose s = .next (disposed s) := rfl

/-- What a command does, in four cases: an error of its check, a construction, a transform, a
disposal. -/
theorem exec_cases {i : Instr} {s t : State} (h : exec i s = .next t) :
    (∃ e, t = s.raiseError e ∧
      (((i = .init ∨ i = .initSeed) ∧ constructCheck i s = some e) ∨
        ∃ final, i = transformInstr final ∧ transformCheck final s = some e)) ∨
    ((i = .init ∨ i = .initSeed) ∧ constructCheck i s = none ∧
      t = s.construct (nonceOfWord s.regs.nonce)) ∨
    (∃ final, i = transformInstr final ∧ transformCheck final s = none ∧
      t = (transformed final s).succeed s.regs.count) ∨
    (i = .dispose ∧ t = disposed s) := by
  have ctor : ∀ i, (i = .init ∨ i = .initSeed) → exec i s = .next t →
      (∃ e, t = s.raiseError e ∧ constructCheck i s = some e) ∨
      (constructCheck i s = none ∧ t = s.construct (nonceOfWord s.regs.nonce)) := by
    intro i hi h
    rw [exec_construct hi, Host.Outcome.next.injEq] at h
    cases hc : constructCheck i s with
    | some e => exact .inl ⟨e, by simpa [hc] using h.symm, rfl⟩
    | none => exact .inr ⟨rfl, by simpa [hc] using h.symm⟩
  have trans : ∀ final, exec (transformInstr final) s = .next t →
      (∃ e, t = s.raiseError e ∧ transformCheck final s = some e) ∨
      (transformCheck final s = none ∧ t = (transformed final s).succeed s.regs.count) := by
    intro final h
    rw [exec_transformInstr, Host.Outcome.next.injEq] at h
    cases hc : transformCheck final s with
    | some e => exact .inl ⟨e, by simpa [hc] using h.symm, rfl⟩
    | none => exact .inr ⟨rfl, by simpa [hc] using h.symm⟩
  cases i with
  | init =>
    rcases ctor _ (.inl rfl) h with ⟨e, h1, h2⟩ | ⟨h1, h2⟩
    · exact .inl ⟨e, h1, .inl ⟨.inl rfl, h2⟩⟩
    · exact .inr (.inl ⟨.inl rfl, h1, h2⟩)
  | initSeed =>
    rcases ctor _ (.inr rfl) h with ⟨e, h1, h2⟩ | ⟨h1, h2⟩
    · exact .inl ⟨e, h1, .inl ⟨.inr rfl, h2⟩⟩
    · exact .inr (.inl ⟨.inr rfl, h1, h2⟩)
  | transform =>
    rcases trans false h with ⟨e, h1, h2⟩ | ⟨h1, h2⟩
    · exact .inl ⟨e, h1, .inr ⟨false, rfl, h2⟩⟩
    · exact .inr (.inr (.inl ⟨false, rfl, h1, h2⟩))
  | transformFinal =>
    rcases trans true h with ⟨e, h1, h2⟩ | ⟨h1, h2⟩
    · exact .inl ⟨e, h1, .inr ⟨true, rfl, h2⟩⟩
    · exact .inr (.inr (.inl ⟨true, rfl, h1, h2⟩))
  | dispose =>
    rw [exec_dispose, Host.Outcome.next.injEq] at h
    exact .inr (.inr (.inr ⟨rfl, h.symm⟩))

/-- A check never raises NONE or ILLEGAL_COMMAND. -/
theorem check_codes {i : Instr} {s : State} {e : ErrCode}
    (h : ((i = .init ∨ i = .initSeed) ∧ constructCheck i s = some e) ∨
      ∃ final, i = transformInstr final ∧ transformCheck final s = some e) :
    e ≠ .none ∧ e ≠ .illegalCommand := by
  rcases h with ⟨-, h⟩ | ⟨final, -, h⟩
  · rw [constructCheck_codes h]
    simp
  · rcases transformCheck_codes h with ⟨-, rfl⟩ | ⟨-, rfl⟩ | ⟨-, rfl | rfl⟩ <;> simp

/-- What a transform that succeeded did. -/
theorem exec_transformInstr_success {final : Bool} {s t : State}
    (h : exec (transformInstr final) s = .next t) (he : t.err = .none) :
    transformCheck final s = none ∧ t = (transformed final s).succeed s.regs.count := by
  rw [exec_transformInstr, Host.Outcome.next.injEq] at h
  cases hc : transformCheck final s with
  | some e =>
    rw [hc] at h
    subst h
    simp only [State.unlessError_some, State.raiseError_err] at he
    subst he
    exact absurd (transformCheck_codes hc) (by simp)
  | none =>
    rw [hc] at h
    exact ⟨rfl, h.symm⟩

/-- What a construction that succeeded did. -/
theorem exec_construct_success {i : Instr} {s t : State} (hi : i = .init ∨ i = .initSeed)
    (h : exec i s = .next t) (he : t.err = .none) : t = s.construct (nonceOfWord s.regs.nonce) := by
  rw [exec_construct hi, Host.Outcome.next.injEq] at h
  cases hc : constructCheck i s with
  | some e =>
    rw [hc] at h
    subst h
    simp only [State.unlessError_some, State.raiseError_err] at he
    subst he
    exact absurd (constructCheck_codes hc) (by simp)
  | none =>
    rw [hc] at h
    exact h.symm

/-- Every command answers a next state. -/
theorem exec_next (i : Instr) (s : State) : ∃ t, exec i s = .next t := by
  cases i <;> exact ⟨_, rfl⟩

/-- What a completion does: its command's meaning or ILLEGAL_COMMAND, then BUSY is cleared
(70_reset_and_hazards.md rule R245). -/
theorem completeCommand_cases {s t : State} (h : completeCommand s = .next t) :
    (∃ i u, decode s.cmdLatch = .command i ∧ exec i s = .next u ∧ t = u.clearBusy) ∨
    (∃ why, decode s.cmdLatch = .illegal why ∧ t = (s.raiseError .illegalCommand).clearBusy) := by
  unfold completeCommand runWord at h
  cases hd : decode s.cmdLatch with
  | command i =>
    obtain ⟨u, hu⟩ := exec_next i s
    rw [hd] at h
    simp only [hu, onNext_next, Host.Outcome.next.injEq] at h
    exact .inl ⟨i, u, rfl, hu, h.symm⟩
  | illegal why =>
    rw [hd] at h
    simp only [onNext_next, Host.Outcome.next.injEq] at h
    exact .inr ⟨why, rfl, h.symm⟩

/-- Every completion answers a next state. -/
theorem completeCommand_next (s : State) : ∃ t, completeCommand s = .next t := by
  unfold completeCommand runWord
  cases decode s.cmdLatch with
  | command i =>
    obtain ⟨u, hu⟩ := exec_next i s
    exact ⟨u.clearBusy, by simp [hu]⟩
  | illegal why => exact ⟨_, rfl⟩

/-- A transform changes the generators and DMEM, and with its success ERR and RESULT. -/
theorem transformed_eq (final : Bool) (s : State) :
    transformed final s = { s with
      gen1 := prgaSteps s.gen1 s.regs.count.toNat
      gen2 := prgaSteps s.gen2 s.regs.count.toNat
      dmem := (transformed final s).dmem } := by
  cases final <;> exact xorStream_eq _ _ _ _

/-- No command changes the inputs still to come. -/
theorem exec_inputs {i : Instr} {s t : State} (h : exec i s = .next t) : t.inputs = s.inputs := by
  rcases exec_cases h with ⟨e, rfl, -⟩ | ⟨-, -, rfl⟩ | ⟨final, -, -, rfl⟩ | ⟨-, rfl⟩
  · rfl
  · simp
  · rw [transformed_eq]
    rfl
  · rfl

/-- A completion does not change the inputs still to come. -/
theorem completeCommand_inputs {s t : State} (h : completeCommand s = .next t) :
    t.inputs = s.inputs := by
  rcases completeCommand_cases h with ⟨i, u, -, hu, rfl⟩ | ⟨why, -, rfl⟩
  · exact (exec_inputs hu : u.inputs = s.inputs)
  · rfl

/-- A completion clears BUSY (70_reset_and_hazards.md rule R245). -/
theorem completeCommand_busy {s t : State} (h : completeCommand s = .next t) : t.busy = false := by
  rcases completeCommand_cases h with ⟨i, u, -, -, rfl⟩ | ⟨why, -, rfl⟩ <;> rfl

/-- A transform keeps DMEM canonical. -/
theorem exec_transformInstr_wf {final : Bool} {s t : State} (h : exec (transformInstr final) s = .next t)
    (he : t.err = .none) (hw : Memory.wf s.dmemInit s.dmem) : Memory.wf t.dmemInit t.dmem := by
  obtain ⟨-, rfl⟩ := exec_transformInstr_success h he
  have hi : (transformed final s).dmemInit = s.dmemInit := by rw [transformed_eq]
  rw [State.succeed_dmem, State.succeed_dmemInit, hi]
  exact transformed_wf hw final

/-- What position `k` of a transform stores, and that nothing else is stored. -/
theorem memRead_transformed_of_ne {final : Bool} {s : State} (h : Memory.wf s.dmemInit s.dmem) {a : Nat}
    (ha : ∀ k, k < s.regs.count.toNat → a ≠ s.storeAddr final k) :
    (transformed final s).memRead a = s.memRead a := by
  cases final <;> exact memRead_xorStream_of_ne _ _ h ha

end Sys2Proof.Machine
end

