-- ==== Sys2Proof/Laws/Lcr.lean ====
section
/-! SUPPORT. The recurrence of the LCR has full period under a well-formed parameter set
(40_initializer.md rule R116), by repeated squaring of its affine update. -/

namespace Sys2Proof.Machine

/-- The constants of `2^k` updates in a row (`lcrNext_iterate_two_mul`). -/
def lcrSquare (a c : Byte) : Nat → Byte × Byte
  | 0 => (a, c)
  | k + 1 =>
    let p := lcrSquare a c k
    (p.1 * p.1, p.1 * p.2 + p.2)

/-- `2^k` updates are the affine update with those constants. -/
theorem lcrNext_iterate_two_pow (a c : Byte) (k : Nat) :
    (lcrNext a c)^[2 ^ k] = lcrNext (lcrSquare a c k).1 (lcrSquare a c k).2 := by
  induction k with
  | zero => rfl
  | succ k ih =>
    rw [Nat.pow_succ, Nat.mul_comm]
    exact lcrNext_iterate_two_mul _ _ _ _ _ ih

/-- The added constant of `2^k` updates is proportional to the increment. -/
theorem lcrSquare_eq (a c : Byte) (k : Nat) :
    lcrSquare a c k = ((lcrSquare a 1 k).1, c * (lcrSquare a 1 k).2) := by
  induction k with
  | zero => simp [lcrSquare]
  | succ k ih =>
    simp only [lcrSquare, ih, Prod.mk.injEq, true_and]
    ring

/-- For a multiplier R8 allows, 128 updates with increment 1 add 128. -/
theorem lcrSquare_seven_free : ∀ u : BitVec 6, lcrSquare (u ++ 1#2) 1 7 = (1, 128) := by
  decide +kernel

/-- An odd byte times 128 is 128. -/
theorem odd_mul_128 : ∀ v : BitVec 7, (v ++ 1#1) * (128 : Byte) = 128 := by decide +kernel

/-- For the constants R8 allows, 128 updates add 128. -/
theorem lcrSquare_seven {a c : Byte} (ha : a.toNat % 4 = 1) (hc : c.toNat % 2 = 1) :
    lcrSquare a c 7 = (1, 128) := by
  have ea : a = a.extractLsb' 2 6 ++ 1#2 := BitVec.eq_of_toNat_eq (by
    have := a.isLt
    rw [BitVec.toNat_append, ← Nat.shiftLeft_add_eq_or_of_lt (by decide)]
    simp only [BitVec.extractLsb'_toNat, Nat.shiftRight_eq_div_pow, Nat.shiftLeft_eq,
      BitVec.toNat_ofNat]
    omega)
  have ec : c = c.extractLsb' 1 7 ++ 1#1 := BitVec.eq_of_toNat_eq (by
    have := c.isLt
    rw [BitVec.toNat_append, ← Nat.shiftLeft_add_eq_or_of_lt (by decide)]
    simp only [BitVec.extractLsb'_toNat, Nat.shiftRight_eq_div_pow, Nat.shiftLeft_eq,
      BitVec.toNat_ofNat]
    omega)
  rw [lcrSquare_eq, ea, lcrSquare_seven_free, ec, odd_mul_128]

/-- The recurrence has period exactly 256 from every seed. -/
theorem lcrNext_minimalPeriod {a c : Byte} (ha : a.toNat % 4 = 1) (hc : c.toNat % 2 = 1) (x : Byte) :
    Function.minimalPeriod (lcrNext a c) x = 256 := by
  have h7 := lcrSquare_seven ha hc
  have not7 : ¬ Function.IsPeriodicPt (lcrNext a c) (2 ^ 7) x := by
    rw [Function.IsPeriodicPt, lcrNext_iterate_two_pow, h7]
    intro h
    simp [Function.IsFixedPt, lcrNext] at h
  have per8 : Function.IsPeriodicPt (lcrNext a c) (2 ^ (7 + 1)) x := by
    rw [Function.IsPeriodicPt, lcrNext_iterate_two_pow, lcrSquare, h7]
    simp [Function.IsFixedPt, lcrNext]
  exact Function.minimalPeriod_eq_prime_pow not7 per8

/-- The multiplier constant selection gives is 1 modulo 4 (R8, R113). -/
theorem selectMultiplier_mod (p : Params) (n : Nonce) : (selectMultiplier p n).toNat % 4 = 1 := by
  have h := p.ok
  simp only [RawParams.wellFormed, RawParams.multipliersOk, Bool.and_eq_true, List.all_eq_true,
    decide_eq_true_eq] at h
  exact h.1.1.1.2 _ (List.getElem_mem _)

/-- The increment constant selection gives is odd (R8, R113). -/
theorem selectIncrement_odd (p : Params) (n : Nonce) : (selectIncrement p n).toNat % 2 = 1 := by
  have h := p.ok
  simp only [RawParams.wellFormed, RawParams.incrementsOk, Bool.and_eq_true, List.all_eq_true,
    decide_eq_true_eq] at h
  exact h.1.1.2 _ (List.getElem_mem _)

end Sys2Proof.Machine
end

