-- ==== Sys2Proof/Laws/Packed.lean ====
section
/-! SUPPORT. A second form of the table operations, on a table packed into one number, and the proof that
it gives what the model gives. Lean's kernel evaluates it quickly, so the tests check the LCR, the KSA
and the PRGA against the vectors of 95_test_vectors.md with it. The model does not use it. -/

namespace Sys2Proof.Machine

/-- A table as one number: entry `i` is bits `8i+7 : 8i`. -/
abbrev Packed := BitVec 2048

/-- Entry `i`. -/
def Packed.get (p : Packed) (i : Byte) : Byte := p.extractLsb' (8 * i.toNat) 8

/-- `d` XORed into entry `i`. -/
def Packed.xorAt (p : Packed) (i d : Byte) : Packed := p ^^^ (d.setWidth 2048 <<< (8 * i.toNat))

/-- Two entries exchanged: their XOR goes into both. -/
def Packed.swap (p : Packed) (i j : Byte) : Packed :=
  let d := p.get i ^^^ p.get j
  (p.xorAt i d).xorAt j d

/-- The packed table whose entries, from entry 0 up, are these bytes. -/
def pack : List Byte → Packed
  | [] => 0
  | b :: bs => b.setWidth 2048 ||| (pack bs <<< 8)

/-- The packed table holds the entries of this table. -/
def Packed.Holds (p : Packed) (t : Table) : Prop := ∀ i, p.get i = tableGet t i

/-- Reading an entry after an XOR into one. -/
theorem Packed.get_xorAt (p : Packed) (i d k : Byte) :
    (p.xorAt i d).get k = if k = i then p.get k ^^^ d else p.get k := by
  have hi := i.isLt
  have hk := k.isLt
  unfold Packed.get Packed.xorAt
  apply BitVec.eq_of_getLsbD_eq
  intro b hb
  by_cases h : k = i
  · subst h
    simp [hb, show 8 * k.toNat + b < 2048 by omega]
  · have h' : k.toNat ≠ i.toNat := fun e => h (BitVec.eq_of_toNat_eq e)
    rw [if_neg h]
    simp [hb, show 8 * k.toNat + b < 2048 by omega]
    by_cases h1 : 8 * k.toNat + b < 8 * i.toNat
    · simp [h1]
    · rw [BitVec.getLsbD_of_ge d _ (by omega)]
      simp

/-- A packed swap is a swap. -/
theorem Packed.Holds.swap {p : Packed} {t : Table} (h : p.Holds t) (i j : Byte) :
    (p.swap i j).Holds (tableSwap t i j) := by
  intro k
  simp only [tableGet_tableSwap, Packed.swap, Packed.get_xorAt, h i, h j, h k]
  by_cases hj : k = j <;> by_cases hi : k = i
  · subst hj hi
    simp
  · subst hj
    rw [if_pos rfl, if_neg hi, if_pos rfl, BitVec.xor_comm (tableGet t i), ← BitVec.xor_assoc,
      BitVec.xor_self, BitVec.zero_xor]
  · subst hi
    rw [if_neg hj, if_pos rfl, if_neg hj, if_pos rfl, ← BitVec.xor_assoc, BitVec.xor_self,
      BitVec.zero_xor]
  · simp [hi, hj]

/-- Entry `i` of packed bytes. -/
theorem get_pack (bs : List Byte) (i : Byte) : (pack bs).get i = bs.getD i.toNat 0 := by
  have key : ∀ (bs : List Byte) (k : Nat), k < 256 →
      (pack bs).extractLsb' (8 * k) 8 = bs.getD k 0 := by
    intro bs
    induction bs with
    | nil => simp [pack]
    | cons b bs ih =>
      intro k hk
      apply BitVec.eq_of_getLsbD_eq
      intro n hn
      cases k with
      | zero =>
        simp [pack, hn]
        omega
      | succ k =>
        have hs := congrArg (fun w => w.getLsbD n) (ih k (by omega))
        simp [hn] at hs
        simp [pack, hn]
        rw [← hs, BitVec.getLsbD_of_ge b _ (by omega),
          show 8 * (k + 1) + n - 8 = 8 * k + n by omega]
        simp [show 8 * (k + 1) + n < 2048 by omega]
        omega
  exact key bs i.toNat i.isLt

/-- The packed entries of a table hold the table. -/
theorem pack_holds (t : Table) : (pack t.toList).Holds t := by
  intro i
  have h : i.toNat < t.toList.length := by simpa using i.isLt
  rw [get_pack, List.getD_eq_getElem _ _ h]
  simp [tableGet]

/-- Packed scheduling (41_ksa.md rule R131). -/
def packedSchedule (ram : Packed) (keylen : Nat) (t : Packed) : Nat → Byte × Packed
  | 0 => (0, t)
  | n + 1 =>
    let r := packedSchedule ram keylen t n
    let i := BitVec.ofNat 8 n
    let j := r.1 + r.2.get i + ram.get (BitVec.ofNat 8 (n % keylen))
    (j, r.2.swap i j)

/-- Packed scheduling gives what scheduling gives. -/
theorem packedSchedule_holds {ram t : Packed} {ram' t' : Table} (hr : ram.Holds ram') (h : t.Holds t')
    (keylen : Nat) {n : Nat} (hn : n ≤ 256) :
    (packedSchedule ram keylen t n).1 = (scheduleSteps ram' keylen t' n).1 ∧
    (packedSchedule ram keylen t n).2.Holds (scheduleSteps ram' keylen t' n).2 := by
  induction n with
  | zero => exact ⟨rfl, h⟩
  | succ n ih =>
    obtain ⟨h1, h2⟩ := ih (by omega)
    have hk : ram.get (BitVec.ofNat 8 (n % keylen)) = keyByte ram' keylen (BitVec.ofNat 8 n) := by
      have hle := Nat.mod_le n keylen
      rw [hr]
      unfold keyByte keyRead tableGet
      congr 1
      have hn' : (BitVec.ofNat 8 n).toNat = n := by
        rw [BitVec.toNat_ofNat, Nat.mod_eq_of_lt (by omega)]
      rw [BitVec.toNat_ofNat, Nat.mod_eq_of_lt (by omega), hn']
    have hj : (packedSchedule ram keylen t (n + 1)).1 =
        (scheduleSteps ram' keylen t' (n + 1)).1 := by
      simp only [packedSchedule, scheduleSteps, scheduleStep, h1, h2 _, hk]
    refine ⟨hj, ?_⟩
    have hs := h2.swap (BitVec.ofNat 8 n) (scheduleSteps ram' keylen t' (n + 1)).1
    rw [← hj] at hs
    simp only [scheduleSteps, scheduleStep] at hj ⊢
    rw [← hj]
    exact hs

/-- A packed generator. -/
structure PackedGenerator where
  /-- The 256 entries. -/
  table : Packed
  /-- The cursor x. -/
  x : Byte
  /-- The cursor y. -/
  y : Byte
  deriving DecidableEq, Repr

/-- The packed generator holds this generator. -/
def PackedGenerator.Holds (p : PackedGenerator) (g : Generator) : Prop :=
  p.table.Holds g.table ∧ p.x = g.x ∧ p.y = g.y

/-- `n` packed PRGA steps (42_prga_combiner.md rule R150). -/
def packedSteps (p : PackedGenerator) : Nat → PackedGenerator
  | 0 => p
  | n + 1 =>
    let q := packedSteps p n
    let x := q.x + 1
    let y := q.y + q.table.get x
    ⟨q.table.swap x y, x, y⟩

/-- Packed steps give what steps give. -/
theorem packedSteps_holds {p : PackedGenerator} {g : Generator} (h : p.Holds g) (n : Nat) :
    (packedSteps p n).Holds (prgaSteps g n) := by
  induction n with
  | zero => exact h
  | succ n ih =>
    obtain ⟨ht, hx, hy⟩ := ih
    refine ⟨?_, ?_, ?_⟩
    · simp only [packedSteps, prgaSteps, prgaStep, hx, hy, ht _]
      exact ht.swap _ _
    · simp only [packedSteps, prgaSteps, prgaStep, hx]
    · simp only [packedSteps, prgaSteps, prgaStep, hx, hy, ht _]

/-- The packed keystream byte (R152). -/
def PackedGenerator.byte (p : PackedGenerator) : Byte :=
  p.table.get (p.table.get p.x + p.table.get p.y)

/-- The packed keystream byte is the keystream byte. -/
theorem PackedGenerator.Holds.byte {p : PackedGenerator} {g : Generator} (h : p.Holds g) :
    p.byte = ksByte g := by
  obtain ⟨ht, hx, hy⟩ := h
  simp only [PackedGenerator.byte, ksByte, hx, hy, ht _]

/-- The combined byte of position `k` from packed generators holding these (R155). -/
theorem packed_keystream {p q : PackedGenerator} {g1 g2 : Generator} (h1 : p.Holds g1) (h2 : q.Holds g2)
    (k : Nat) :
    combine (packedSteps p (k + 1)).byte (packedSteps q (k + 1)).byte = keystream g1 g2 k := by
  rw [(packedSteps_holds h1 _).byte, (packedSteps_holds h2 _).byte, keystream]

/-- The packed KSA (R130). -/
def packedKsa (ram : Packed) (keylen : Nat) (t : Packed) : PackedGenerator :=
  packedSteps ⟨(packedSchedule ram keylen t 256).2, 0, 0⟩ 256

/-- The packed KSA gives what the KSA gives. -/
theorem packedKsa_holds {ram t : Packed} {ram' t' : Table} (hr : ram.Holds ram') (h : t.Holds t')
    (keylen : Nat) : (packedKsa ram keylen t).Holds (ksa ram' keylen t') := by
  have hs := (packedSchedule_holds hr h keylen (Nat.le_refl 256)).2
  unfold packedKsa ksa drop256 schedule
  generalize packedSchedule ram keylen t 256 = a at hs ⊢
  generalize scheduleSteps ram' keylen t' 256 = b at hs ⊢
  generalize 256 = n
  exact packedSteps_holds (p := ⟨a.2, 0, 0⟩) (g := ⟨b.2, 0, 0⟩) ⟨hs, rfl, rfl⟩ n

/-- The packed entries of the LCR hold the LCR's table. -/
theorem pack_lcr_holds (a c r x : Byte) : (pack (lcrEntries a c r 256 x)).Holds (lcrTable a c r x) := by
  intro i
  have h : i.toNat < (lcrEntries a c r 256 x).length := by
    rw [lcrEntries_length]
    exact i.isLt
  rw [get_pack, List.getD_eq_getElem _ _ h, lcrEntries_getElem, tableGet_lcrTable]

end Sys2Proof.Machine
end

