-- ==== Sys2Proof/Laws/PerInstr.lean ====
section
/-! SUPPORT. What is said of each command as syntax, one lemma for each constructor. -/

namespace Sys2Proof.Laws.Encoding

/-- The table's word of a command, numbered as spec/opcode_table.json numbers it, is read as that command;
as a number it is the command's OPCODE, since MBZ is zero (30_encoding.md rules R90, R91). -/
def Statement (i : Instr) : Prop :=
  decodeTableWord 32 (encode i).toNat = some i ∧ (encode i).toNat = (opcodeOf i).toNat

theorem init : Statement .init := ⟨rfl, rfl⟩
theorem initSeed : Statement .initSeed := ⟨rfl, rfl⟩
theorem transform : Statement .transform := ⟨rfl, rfl⟩
theorem transformFinal : Statement .transformFinal := ⟨rfl, rfl⟩
theorem dispose : Statement .dispose := ⟨rfl, rfl⟩

end Sys2Proof.Laws.Encoding
end

