-- ==== Sys2Proof/Laws/Step.lean ====
section
/-! SUPPORT. What a host access and a step can do, said once: the inversion of `busWrite`, `perform` and
`step`, and which move the plain data of a state gives. -/

namespace Sys2Proof.Machine

/-- DMEM lanes write DMEM only. -/
theorem State.memWriteLanes_eq (s : State) (a : Nat) (v : Word) (k : Nat) :
    s.memWriteLanes a v k = { s with dmem := (s.memWriteLanes a v k).dmem } := by
  induction k with
  | zero => rfl
  | succ k ih =>
    rw [State.memWriteLanes, ih]
    rfl

/-- KEY RAM lanes write KEY RAM only. -/
theorem State.keyWriteLanes_eq (s : State) (a : Nat) (v : Word) (k : Nat) :
    s.keyWriteLanes a v k = { s with keyRam := (s.keyWriteLanes a v k).keyRam } := by
  induction k with
  | zero => rfl
  | succ k ih =>
    rw [State.keyWriteLanes, ih]
    rfl

/-- Lane writes below `size` keep DMEM canonical and below `size`. -/
theorem State.memWriteLanes_inv {s : State} {size : Nat} (h : Memory.wf s.dmemInit s.dmem)
    (hi : Memory.inside size s.dmem) (a : Nat) (v : Word) (k : Nat) (ha : a + k ≤ size) :
    Memory.wf s.dmemInit (s.memWriteLanes a v k).dmem ∧
      Memory.inside size (s.memWriteLanes a v k).dmem := by
  induction k with
  | zero => exact ⟨h, hi⟩
  | succ k ih =>
    obtain ⟨h1, h2⟩ := ih (by omega)
    have e : (s.memWriteLanes a v k).dmemInit = s.dmemInit := by rw [State.memWriteLanes_eq]
    constructor
    · rw [State.memWriteLanes, State.memWrite_dmem, e]
      exact Memory.write_wf h1
    · rw [State.memWriteLanes, State.memWrite_dmem]
      exact Memory.write_inside h2 (by omega)

/-- KEY RAM after lane writes: the written lanes, and the old bytes elsewhere. -/
theorem State.keyWriteLanes_get (s : State) (a : Nat) (v : Word) {k : Nat} (h : a + k ≤ 256) (j : Byte) :
    tableGet (s.keyWriteLanes a v k).keyRam j =
      if a ≤ j.toNat ∧ j.toNat < a + k then laneByte v (j.toNat - a) else tableGet s.keyRam j := by
  induction k with
  | zero =>
    rw [if_neg (by omega)]
    rfl
  | succ k ih =>
    rw [State.keyWriteLanes, State.keyWrite_keyRam, tableGet_tableSet, ih (by omega)]
    have hiff : j = BitVec.ofNat 8 (a + k) ↔ j.toNat = a + k := by
      rw [← BitVec.toNat_inj, BitVec.toNat_ofNat, Nat.mod_eq_of_lt (by omega)]
    by_cases hj : j.toNat = a + k
    · rw [if_pos (hiff.2 hj), if_pos (by omega), hj]
      congr 1
      omega
    · rw [if_neg (fun e => hj (hiff.1 e))]
      by_cases h2 : a ≤ j.toNat ∧ j.toNat < a + k
      · rw [if_pos h2, if_pos (by omega)]
      · rw [if_neg h2, if_neg (by omega)]

/-- DMEM after lane writes: canonical, with the written lanes and the old bytes elsewhere. -/
theorem State.memWriteLanes_read {s : State} (h : Memory.wf s.dmemInit s.dmem) (a : Nat) (v : Word)
    (k : Nat) :
    Memory.wf s.dmemInit (s.memWriteLanes a v k).dmem ∧
    ∀ x, (s.memWriteLanes a v k).memRead x =
      if a ≤ x ∧ x < a + k then laneByte v (x - a) else s.memRead x := by
  induction k with
  | zero =>
    refine ⟨h, fun x => ?_⟩
    rw [if_neg (by omega)]
    rfl
  | succ k ih =>
    obtain ⟨h1, h2⟩ := ih
    have e : (s.memWriteLanes a v k).dmemInit = s.dmemInit := by rw [State.memWriteLanes_eq]
    refine ⟨?_, fun x => ?_⟩
    · rw [State.memWriteLanes, State.memWrite_dmem, e]
      exact Memory.write_wf h1
    · rw [State.memWriteLanes, State.memRead_memWrite (by rw [e]; exact h1), h2]
      by_cases hx : x = a + k
      · rw [if_pos hx, if_pos (by omega), hx]
        congr 1
        omega
      · rw [if_neg hx]
        by_cases h3 : a ≤ x ∧ x < a + k
        · rw [if_pos h3, if_pos (by omega)]
        · rw [if_neg h3, if_neg (by omega)]

/-- Lane `k` of the word made of these bytes (20_memory.md rule R65). -/
theorem extractLsb'_wordOfLanes (bs : List Byte) {k : Nat} (h : k < 4) :
    (wordOfLanes bs).extractLsb' (8 * k) 8 = bs.getD k 0 := by
  induction bs generalizing k with
  | nil => simp [wordOfLanes]
  | cons b bs ih =>
    rw [wordOfLanes]
    apply BitVec.eq_of_getLsbD_eq
    intro i hi
    cases k with
    | zero =>
      simp [hi]
      omega
    | succ k =>
      have hk := congrArg (fun w => w.getLsbD i) (ih (k := k) (by omega))
      simp [hi] at hk
      simp [hi]
      rw [← hk, BitVec.getLsbD_of_ge b _ (by omega),
        show 8 * (k + 1) + i - 8 = 8 * k + i by omega]
      simp [show 8 * (k + 1) + i < 32 by omega]
      omega

/-- Byte `k` of a run of DMEM bytes. -/
theorem State.memBytes_getD (s : State) (a n k : Nat) :
    (s.memBytes a n).getD k 0 = if k < n then s.memRead (a + k) else 0 := by
  induction n generalizing a k with
  | zero => simp [State.memBytes]
  | succ n ih =>
    rw [State.memBytes]
    cases k with
    | zero => simp
    | succ k =>
      simp only [List.getD_cons_succ, ih (a + 1) k]
      by_cases h : k < n
      · rw [if_pos h, if_pos (by omega)]
        congr 1
        omega
      · rw [if_neg h, if_neg (by omega)]

/-- DMEM_SIZE is a multiple of 4 (00_scope.md rule R7). -/
theorem params_dmemSize_mod (p : Params) : p.dmemSize % 4 = 0 := by
  have h := p.ok
  simp only [RawParams.wellFormed, RawParams.dmemSizeOk, Bool.and_eq_true, decide_eq_true_eq] at h
  exact h.1.2.2

/-- "an aligned access never straddles the end of the window" (20_memory.md rule R63). -/
theorem aligned_fits (p : Params) {w : Width} {a : Nat} (ha : a % w.bytes = 0) (h : a < p.dmemSize) :
    a + w.bytes ≤ p.dmemSize := by
  have := params_dmemSize_mod p
  cases w <;> simp only [Width.bytes] at * <;> omega

/-- What a write at a block offset does: nothing, a register, a command word, KEY RAM lanes, or DMEM
lanes inside DMEM. -/
theorem State.busWrite_cases (s : State) (w : Width) (off : Nat) (v : Word) :
    s.busWrite w off v = s ∨
    (∃ r, s.busWrite w off v = s.setRegs r) ∨
    (w = .word ∧ off = 0 ∧ s.busWrite w off v = s.acceptCommand v) ∨
    (s.busWrite w off v = s.keyWriteLanes (off - 0x100) v w.bytes) ∨
    (0x1000 ≤ off ∧ off - 0x1000 + w.bytes ≤ s.params.dmemSize ∧
      s.busWrite w off v = s.memWriteLanes (off - 0x1000) v w.bytes) := by
  unfold State.busWrite
  split
  · exact .inl rfl
  · next hal =>
    simp only [aligned, decide_eq_false_iff_not, not_not] at hal
    cases hw : windowOf s.params.dmemSize off with
    | register =>
      dsimp only
      split
      · next hww =>
        cases hr : regAt off with
        | none => exact .inl rfl
        | some r =>
          rw [Option.map_some, Option.getD_some]
          cases r
          case cmd =>
            refine .inr (.inr (.inl ⟨hww, ?_, rfl⟩))
            unfold regAt at hr
            split at hr <;> simp_all
          case status => exact .inl rfl
          case result => exact .inl rfl
          all_goals exact .inr (.inl ⟨_, rfl⟩)
      · exact .inl rfl
    | key => exact .inr (.inr (.inr (.inl rfl)))
    | data =>
      refine .inr (.inr (.inr (.inr ?_)))
      unfold windowOf at hw
      repeat' split at hw
      all_goals try simp at hw
      refine ⟨by omega, aligned_fits _ ?_ (by omega), rfl⟩
      cases w <;> simp only [Width.bytes] at * <;> omega
    | reserved => exact .inl rfl

/-- A write at a block offset keeps what only completions and resets write, and the outside world. -/
theorem State.busWrite_keeps (s : State) (w : Width) (off : Nat) (v : Word) :
    s.busWrite w off v = { s with
      keyRam := (s.busWrite w off v).keyRam
      dmem := (s.busWrite w off v).dmem
      busy := (s.busWrite w off v).busy
      cmdLatch := (s.busWrite w off v).cmdLatch
      regs := (s.busWrite w off v).regs } := by
  rcases s.busWrite_cases w off v with h | ⟨r, h⟩ | ⟨-, -, h⟩ | h | ⟨-, -, h⟩ <;> rw [h]
  · rfl
  · rfl
  · rw [State.keyWriteLanes_eq]
  · rw [State.memWriteLanes_eq]

/-- What an access does: an answer, nothing, or a write at its offset. -/
theorem State.perform_cases (s : State) (a : Access) :
    (s.perform a = s) ∨ (∃ v, s.perform a = s.answer v) ∨
    ∃ w addr v off, a = .write w addr v ∧ busOffset s.params.blockBase addr = some off ∧
      s.perform a = s.busWrite w off v := by
  cases a with
  | read w addr =>
    unfold State.perform
    dsimp only
    split
    · exact .inr (.inl ⟨_, rfl⟩)
    · exact .inl rfl
  | write w addr v =>
    unfold State.perform
    dsimp only
    split
    · next off h => exact .inr (.inr ⟨w, addr, v, off, rfl, h, rfl⟩)
    · exact .inl rfl

/-- An access does not change the inputs still to come. -/
theorem State.perform_inputs (s : State) (a : Access) : (s.perform a).inputs = s.inputs := by
  rcases s.perform_cases a with h | ⟨v, h⟩ | ⟨w, addr, v, off, -, -, h⟩ <;> rw [h]
  · rfl
  · rw [State.busWrite_keeps]

/-- DMEM bytes read in order. -/
theorem State.memBytes_congr {s u : State} (h : ∀ a, u.memRead a = s.memRead a) (a k : Nat) :
    u.memBytes a k = s.memBytes a k := by
  induction k generalizing a with
  | zero => rfl
  | succ k ih => rw [State.memBytes, State.memBytes, h, ih]

/-- What a read returns depends on the host-visible state alone: not on S1, S2, the cursors, KEY RAM,
CMDLATCH, or what the outside world does. -/
theorem State.busRead_congr {s u : State} (hl : u.lstate = s.lstate) (hb : u.busy = s.busy)
    (he : u.err = s.err) (hr : u.result = s.result) (hg : u.regs = s.regs) (hp : u.params = s.params)
    (hm : ∀ a, u.memRead a = s.memRead a) (w : Width) (off : Nat) :
    u.busRead w off = s.busRead w off := by
  have hreg : u.readReg = s.readReg := by
    funext r
    cases r <;> simp [State.readReg, State.statusWord, hl, hb, he, hr, hg]
  unfold State.busRead
  rw [hp, hreg, State.memBytes_congr hm]

/-- What a read returns does not depend on the inputs still to come. -/
@[simp] theorem State.busRead_setInputs (s : State) (is : List Input) (w : Width) (off : Nat) :
    (s.setInputs is).busRead w off = s.busRead w off :=
  State.busRead_congr (s := s) (u := s.setInputs is) rfl rfl rfl rfl rfl rfl (fun _ => rfl) w off

/-- A bus address `base + off` has block offset `off`. -/
theorem busOffset_add {base off : Nat} (h : off < 2 ^ 32) : busOffset base (base + off) = some off := by
  unfold busOffset
  rw [if_pos ⟨by omega, by omega⟩]
  simp

/-- A 32-bit write to CMD accepts the word (10_state.md rule R34). -/
theorem State.perform_cmdWrite (s : State) (v : Word) :
    s.perform (.write .word (s.params.blockBase + 0x000) v) = s.acceptCommand v := by
  unfold State.perform
  dsimp only
  rw [busOffset_add (by decide)]
  rfl

/-- A 32-bit read of STATUS answers the STATUS word (10_state.md rule R35). -/
theorem State.perform_statusRead (s : State) :
    s.perform (.read .word (s.params.blockBase + 0x004)) = s.answer s.statusWord := by
  unfold State.perform
  dsimp only
  rw [busOffset_add (by decide)]
  rfl

/-- The bus address of a block offset. -/
theorem busOffset_eq_some {base addr off : Nat} (h : busOffset base addr = some off) :
    addr = base + off ∧ off < 2 ^ 32 := by
  unfold busOffset at h
  split at h
  · simp at h
    omega
  · simp at h

/-- The access that is performed while BUSY = 1, by its bus address. -/
theorem isStatusRead_iff {base : Nat} {a : Access} :
    isStatusRead base a = true ↔ a = .read .word (base + 0x004) := by
  cases a with
  | read w addr =>
    cases w <;> simp only [isStatusRead, decide_eq_true_eq, Bool.false_eq_true, Access.read.injEq,
      reduceCtorEq, false_and, true_and]
    exact ⟨fun h => (busOffset_eq_some h).1, fun h => h ▸ busOffset_add (by decide)⟩
  | write w addr v => simp [isStatusRead]

/-- Cancelled accesses answer, and change nothing else. -/
theorem State.foldl_cancel (held : List Access) (s : State) :
    held.foldl State.cancel s = { s with
      replies := s.replies ++ List.replicate (held.countP fun b => match b with
        | .read _ addr => (busOffset s.params.blockBase addr).isSome
        | .write _ _ _ => false) 0 } := by
  induction held generalizing s with
  | nil => simp
  | cons a held ih =>
    rw [List.foldl_cons, ih, List.countP_cons]
    cases a with
    | write w addr v => simp [State.cancel]
    | read w addr =>
      simp only [State.cancel]
      split
      · simp [State.answer, List.replicate_succ']; simp [← List.replicate_succ, List.replicate_succ']
      · simp

/-- A reset leaves the reset state, with the inputs still to come and the replies on the bus. -/
theorem State.resetBlock_eq (s : State) (draw : List Byte) (ans : Bool) (held : List Access)
    (rest : List Input) :
    s.resetBlock draw ans held rest = { State.afterReset s.params draw with
      inputs := rest
      replies := (s.resetBlock draw ans held rest).replies } := by
  unfold State.resetBlock
  dsimp only
  split
  · rw [State.foldl_cancel]
  · rfl

/-- The move while accesses at the front are held: past them stands the end, the ENGINE's turn or a
reset. -/
theorem heldMove_map (acc held : List Access) (rest : List Input) :
    heldMove acc (held.map .access ++ rest) = heldMove (acc ++ held) rest := by
  induction held generalizing acc with
  | nil => simp
  | cons a held ih => simp [heldMove, ih]

/-- What `heldMove` gives: a completion or a reset. -/
theorem heldMove_cases (acc : List Access) (is : List Input) :
    (∃ rest, heldMove acc is = .complete rest ∧ rest.length ≤ acc.length + is.length) ∨
    ∃ d ans held rest, heldMove acc is = .reset d ans held rest ∧ rest.length < is.length := by
  induction is generalizing acc with
  | nil => exact .inl ⟨_, rfl, by simp⟩
  | cons i is ih =>
    cases i with
    | access a =>
      rcases ih (acc ++ [a]) with ⟨rest, h, hl⟩ | ⟨d, ans, held, rest, h, hl⟩
      · exact .inl ⟨rest, h, by simp at *; omega⟩
      · exact .inr ⟨d, ans, held, rest, h, by simp; omega⟩
    | engine => exact .inl ⟨_, rfl, by simp⟩
    | reset d ans => exact .inr ⟨d, ans, acc, is, rfl, by simp⟩

/-- What a busy block does next: a STATUS read, a completion, or a reset. -/
theorem nextMove_busy {s : State} (h : s.busy = true) :
    (∃ rest, s.inputs = .access (.read .word (s.params.blockBase + 0x004)) :: rest ∧
      s.nextMove = .perform (.read .word (s.params.blockBase + 0x004)) rest) ∨
    (∃ rest, s.nextMove = .complete rest ∧ rest.length ≤ s.inputs.length) ∨
    ∃ d ans held rest, s.nextMove = .reset d ans held rest ∧ rest.length < s.inputs.length := by
  unfold State.nextMove
  rw [h, if_pos rfl]
  unfold busyMove
  cases s.inputs with
  | nil => exact .inr (.inl ⟨_, rfl, by simp⟩)
  | cons i is =>
    cases i with
    | access a =>
      dsimp only
      split
      · next hs =>
        rw [isStatusRead_iff.1 hs]
        exact .inl ⟨is, rfl, rfl⟩
      · rcases heldMove_cases [a] is with ⟨rest, h, hl⟩ | ⟨d, ans, held, rest, h, hl⟩
        · exact .inr (.inl ⟨rest, h, by simp at *; omega⟩)
        · exact .inr (.inr ⟨d, ans, held, rest, h, by simp; omega⟩)
    | engine => exact .inr (.inl ⟨_, rfl, by simp⟩)
    | reset d ans => exact .inr (.inr ⟨d, ans, _, _, rfl, by simp⟩)

/-- What an idle block does next: nothing, an unused turn, an access, or a reset. -/
theorem nextMove_idle {s : State} (h : s.busy = false) :
    (s.inputs = [] ∧ s.nextMove = .idle) ∨
    (∃ rest, s.inputs = .engine :: rest ∧ s.nextMove = .skip rest) ∨
    (∃ a rest, s.inputs = .access a :: rest ∧ s.nextMove = .perform a rest) ∨
    ∃ d ans rest, s.inputs = .reset d ans :: rest ∧ s.nextMove = .reset d ans [] rest := by
  unfold State.nextMove
  rw [h]
  cases s.inputs with
  | nil => simp [idleMove]
  | cons i is => cases i <;> simp [idleMove]

/-- What a step does, by its move. -/
theorem step_cases {s t : State} (h : step s = .next t) :
    (s.nextMove = .idle ∧ t = s) ∨
    (∃ rest, s.nextMove = .skip rest ∧ t = s.setInputs rest) ∨
    (∃ a rest, s.nextMove = .perform a rest ∧ t = (s.setInputs rest).perform a) ∨
    (∃ rest, s.nextMove = .complete rest ∧ completeCommand (s.setInputs rest) = .next t) ∨
    ∃ d ans held rest, s.nextMove = .reset d ans held rest ∧ t = s.resetBlock d ans held rest := by
  unfold step at h
  cases hm : s.nextMove <;> rw [hm] at h <;> simp only [takeMove, Host.Outcome.next.injEq] at h
  · exact .inl ⟨rfl, h.symm⟩
  · exact .inr (.inl ⟨_, rfl, h.symm⟩)
  · exact .inr (.inr (.inl ⟨_, _, rfl, h.symm⟩))
  · exact .inr (.inr (.inr (.inl ⟨_, rfl, h⟩)))
  · exact .inr (.inr (.inr (.inr ⟨_, _, _, _, rfl, h.symm⟩)))

/-- One step, then the rest of the run. -/
theorem runSteps_succ {s t : State} (h : step s = .next t) (k : Nat) :
    runSteps (k + 1) s = runSteps k t := by
  have hc : Sys2Proof.core.step s = .next t := h
  simp only [runSteps, Host.Core.run, hc]
  rfl

end Sys2Proof.Machine
end

