-- ==== Sys2Proof/Tests/Slice0.lean ====
section
/-! SUPPORT. The model's own tests. Every expected value is a vector of 95_test_vectors.md, named in the
comment, an example of the rule the comment names, or worked out by hand from it. The last part holds
one witness for the hypotheses of every statement that has any. -/

open Sys2Proof Sys2Proof.Machine

/-! ### The example parameter set EX1 and the states the tests start from -/

/-- EX1 of 95_test_vectors.md section 1, with DMEM_SIZE = 0x200. -/
def exRaw : RawParams where
  tableA := [0x0D, 0x11, 0x15, 0x19, 0x1D, 0x21, 0x25, 0x29]
  tableC := [0x07, 0x0B, 0x0D, 0x11, 0x13, 0x17, 0x1D, 0x1F]
  dmemSize := 0x200
  blockBase := 0x40000000

/-- EX1, checked. -/
def exParams : Params := ⟨exRaw, by decide⟩

/-- After reset, DMEM_INIT all zero. -/
def exReset : State := State.afterReset exParams []

/-- A command word is running, and these inputs are still to come. -/
def exBusy (w : Word) (inputs : List Input) : State :=
  { exReset with cmdLatch := w, busy := true, inputs := inputs }

/-- Nothing runs, and these inputs are still to come. -/
def exIdle (inputs : List Input) : State := exReset.setInputs inputs

/-- The table with these entries. -/
def tableOf (f : Nat → Byte) : Table := ⟨((List.range 256).map f).toArray, by simp⟩

/-- KEY RAM holding these bytes from index 0. -/
def exKeyRam (bytes : List Byte) : Table := tableOf fun i => bytes.getD i 0

/-- The key "password" and the nonce 01 02 03 04, ready for INIT. -/
def exKeyed : State :=
  { exReset with
    keyRam := exKeyRam [0x70, 0x61, 0x73, 0x73, 0x77, 0x6F, 0x72, 0x64]
    regs := { HostRegs.zero with keylen := 8, nonce := 0x04030201, nonceLen := 4 } }

/-- The identity table. -/
def idTable : Table := tableOf fun i => BitVec.ofNat 8 i

/-- READY with S1 = S2 = identity, cursors (0, 0) and (255, 0); a 4-byte input buffer at 0x000 and a
4-byte output buffer at 0x010, both present; COUNT = 2. -/
def exReady : State :=
  { exReset with
    gen1 := ⟨idTable, 0, 0⟩
    gen2 := ⟨idTable, 255, 0⟩
    lstate := .ready
    regs := { HostRegs.zero with
      argf := 3, inLen := 4, outBase := 0x10, outLen := 4, count := 2 } }

/-- The bus address of a block offset under EX1. -/
def exAt (off : Nat) : Nat := 0x40000000 + off

/-! ### Well-formedness: each check refuses an ill-formed term -/

theorem test_mbz_not_zero_refused : (fieldsOf 0x00000101).wellFormed = false := by decide
theorem test_opcode_00_refused : (fieldsOf 0x00000000).wellFormed = false := by decide
theorem test_opcode_06_refused : (fieldsOf 0x00000006).wellFormed = false := by decide
theorem test_opcode_05_accepted : (fieldsOf 0x00000005).wellFormed = true := by decide
theorem test_ex1_wellFormed : exRaw.wellFormed = true := by decide
/-- V-LCR-8: a multiplier with a mod 4 = 3. -/
theorem test_multiplier_03_refused : RawParams.wellFormed { exRaw with tableA := [0x0D, 0x03] } = false := by
  decide
/-- V-LCR-9: an even increment. -/
theorem test_increment_02_refused : RawParams.wellFormed { exRaw with tableC := [0x07, 0x02] } = false := by
  decide
theorem test_empty_tableA_refused : RawParams.wellFormed { exRaw with tableA := [] } = false := by decide
theorem test_empty_tableC_refused : RawParams.wellFormed { exRaw with tableC := [] } = false := by decide
theorem test_257_entries_refused :
    RawParams.wellFormed { exRaw with tableA := List.replicate 257 0x0D } = false := by
  decide +kernel
theorem test_dmemSize_0_refused : RawParams.wellFormed { exRaw with dmemSize := 0 } = false := by decide
theorem test_dmemSize_6_refused : RawParams.wellFormed { exRaw with dmemSize := 6 } = false := by decide
theorem test_dmemSize_over_2_31_refused :
    RawParams.wellFormed { exRaw with dmemSize := 2 ^ 31 + 4 } = false := by decide
theorem test_blockBase_2_refused : RawParams.wellFormed { exRaw with blockBase := 2 } = false := by decide

/-! ### Decoding: each command's word, bit by bit from R90 and R91 (MBZ in bits 31:8, OPCODE in 7:0) -/

theorem test_decode_INIT : decode 0b000000000000000000000000_00000001 = .command .init := by decide
theorem test_decode_INIT_SEED : decode 0b000000000000000000000000_00000010 = .command .initSeed := by
  decide
theorem test_decode_TRANSFORM : decode 0b000000000000000000000000_00000011 = .command .transform := by
  decide
theorem test_decode_TRANSFORM_FINAL :
    decode 0b000000000000000000000000_00000100 = .command .transformFinal := by decide
theorem test_decode_DISPOSE : decode 0b000000000000000000000000_00000101 = .command .dispose := by decide
/-- V-ENC-4: MBZ is not zero, whatever the OPCODE. -/
theorem test_decode_80000003 : decode 0b100000000000000000000000_00000011 = .illegal .mbzNotZero := by
  decide
theorem test_decodeTableWord : decodeTableWord 32 4 = some .transformFinal := by decide

/-! ### The cipher's internal operations -/

/-- V-N-1 and V-N-2: the second nonce. -/
theorem test_deriveNonce2 : deriveNonce2 #v[0x01, 0x02, 0x03, 0x04] = #v[0x82, 0x83, 0x84, 0x81] ∧
    deriveNonce2 #v[0x00, 0x7F, 0x80, 0xFF] = #v[0xFF, 0x00, 0x7F, 0x80] := by decide

/-- V-N-1 and V-N-2: the constants of the nonce and of its second nonce under EX1. -/
theorem test_select_constants :
    selectMultiplier exParams #v[0x01, 0x02, 0x03, 0x04] = 0x19 ∧
    selectIncrement exParams #v[0x01, 0x02, 0x03, 0x04] = 0x13 ∧
    selectMultiplier exParams #v[0xFF, 0x00, 0x7F, 0x80] = 0x29 ∧
    selectIncrement exParams #v[0xFF, 0x00, 0x7F, 0x80] = 0x07 := by decide

/-- V-SEED-2 and V-BUS-9: the nonce bytes of NONCE. -/
theorem test_nonce_bytes : nonceOfWord 0x80000000 = #v[0x00, 0x00, 0x00, 0x80] ∧
    nonceOfWord 0x04030201 = #v[0x01, 0x02, 0x03, 0x04] := by decide

/-- V-LCR-1, row 00, and the last entry: LCR(01 02 03 04) under EX1. -/
theorem test_lcr_1 : (lcrEntries 0x19 0x13 0x01 256 0x02).take 16 =
      [0x44, 0xD1, 0x62, 0xBF, 0xA0, 0xCD, 0xFE, 0xFB, 0x7C, 0x49, 0x1A, 0xB7, 0xD8, 0x45, 0xB6, 0xF3] ∧
    (lcrEntries 0x19 0x13 0x01 256 0x02).getLast? = some 0x03 := by decide +kernel

/-- V-LCR-4: the XOR with r. -/
theorem test_lcr_4 : (lcrEntries 0x0D 0x07 0xFF 8 0x00) =
    [0xF8, 0x9D, 0xFE, 0xEB, 0xF4, 0x69, 0x5A, 0x97] := by decide

/-- V-PRGA-1 and V-PRGA-2: two steps on the identity table from (0, 0). -/
theorem test_prga_1_2 : (prgaSteps ⟨idTable, 0, 0⟩ 2).x = 2 ∧ (prgaSteps ⟨idTable, 0, 0⟩ 2).y = 3 ∧
    tableGet (prgaSteps ⟨idTable, 0, 0⟩ 2).table 2 = 0x03 ∧
    ksByte (prgaSteps ⟨idTable, 0, 0⟩ 1) = 0x02 ∧ ksByte (prgaSteps ⟨idTable, 0, 0⟩ 2) = 0x05 := by
  decide +kernel

/-- V-PRGA-4: y wraps and the swap is not with itself. -/
theorem test_prga_4 : (prgaStep ⟨idTable, 0, 255⟩).x = 1 ∧ (prgaStep ⟨idTable, 0, 255⟩).y = 0 ∧
    tableGet (prgaStep ⟨idTable, 0, 255⟩).table 0 = 0x01 ∧
    ksByte (prgaStep ⟨idTable, 0, 255⟩) = 0x00 := by decide +kernel

/-- V-COMB-3, V-COMB-4, V-COMB-7 to V-COMB-12. -/
theorem test_combine : combine 0x01 0x00 = 0x21 ∧ combine 0x00 0x01 = 0x01 ∧ combine 0x07 0x08 = 0xEE ∧
    combine 0x12 0x34 = 0x00 ∧ combine 0xA5 0x5A = 0x54 ∧ combine 0xFF 0x00 = 0x1F ∧
    combine 0x00 0xFF = 0xE0 ∧ combine 0xD4 0xD4 = 0x32 := by decide

/-- The key "Key" (4B 65 79) and the identity table, packed. -/
def exKeyPacked : Packed := 0x79654B
def idPacked : Packed := pack ((List.range 256).map fun i => BitVec.ofNat 8 i)

theorem exKeyPacked_holds : exKeyPacked.Holds (exKeyRam [0x4B, 0x65, 0x79]) := by
  have h : exKeyPacked = pack (exKeyRam [0x4B, 0x65, 0x79]).toList := by decide +kernel
  rw [h]
  exact pack_holds _

/-- V-KSA-2: identity table, key "Key", scheduling only: j = 0x36, T begins 4B 33 84 9D C0 C8 1D A8. -/
theorem test_ksa_2 : (packedSchedule exKeyPacked 3 idPacked 256).1 = 0x36 ∧
    [0, 1, 2, 3, 4, 5, 6, 7].map (packedSchedule exKeyPacked 3 idPacked 256).2.get =
      [0x4B, 0x33, 0x84, 0x9D, 0xC0, 0xC8, 0x1D, 0xA8] := by decide +kernel

/-- V-KSA-3: identity table, key "Key", full KSA: y = 6, T begins E3 4E 19 14 29 38 4B A0. -/
theorem test_ksa_3 : (ksa (exKeyRam [0x4B, 0x65, 0x79]) 3 idTable).y = 6 ∧
    [0, 1, 2, 3, 4, 5, 6, 7].map (tableGet (ksa (exKeyRam [0x4B, 0x65, 0x79]) 3 idTable).table) =
      [0xE3, 0x4E, 0x19, 0x14, 0x29, 0x38, 0x4B, 0xA0] := by
  obtain ⟨ht, -, hy⟩ := packedKsa_holds exKeyPacked_holds (pack_holds idTable) 3
  rw [← funext ht, ← hy]
  decide +kernel

/-! ### INIT and INIT_SEED -/

/-- The key "password", packed. -/
def exPasswordPacked : Packed := 0x64726F7773736170

theorem exPasswordPacked_holds : exPasswordPacked.Holds exKeyed.keyRam := by
  have h : exPasswordPacked = pack exKeyed.keyRam.toList := by decide +kernel
  rw [h]
  exact pack_holds _

/-- S1 and S2 of the example construction (EX1, "password", 01 02 03 04), packed. -/
def exGen1 : PackedGenerator :=
  packedKsa exPasswordPacked 8 (pack (lcrEntries 0x19 0x13 0x01 256 0x02))
def exGen2 : PackedGenerator :=
  packedKsa exPasswordPacked 8 (pack (lcrEntries 0x1D 0x0B 0x82 256 0x83))

theorem exGen1_holds : exGen1.Holds (exKeyed.keyedGenerator #v[0x01, 0x02, 0x03, 0x04]) :=
  packedKsa_holds exPasswordPacked_holds (pack_lcr_holds 0x19 0x13 0x01 0x02) 8

theorem exGen2_holds : exGen2.Holds (exKeyed.keyedGenerator #v[0x82, 0x83, 0x84, 0x81]) :=
  packedKsa_holds exPasswordPacked_holds (pack_lcr_holds 0x1D 0x0B 0x82 0x83) 8

/-- The state of the example construction. -/
def exInstance : State := exKeyed.construct #v[0x01, 0x02, 0x03, 0x04]

/-- INIT on the example operands answers it. -/
theorem test_init_succeeds : exec .init exKeyed = .next exInstance := by
  rw [exec_construct (.inl rfl)]
  simp only [constructCheck]
  rw [State.validateKey_none (by decide), State.validateNonceLen_none rfl, Option.or_none,
    State.unlessError_none, exInstance]
  congr 2

/-- V-KSA-5: the cursors and the first entries of S1 and S2 after that INIT. -/
theorem test_init_example : exInstance.gen1.y = 6 ∧ exInstance.gen2.y = 9 ∧
    [0, 1, 2, 3, 4, 5, 6, 7].map (tableGet exInstance.gen1.table) =
      [0x08, 0x7A, 0xC5, 0x5D, 0x01, 0xB4, 0x15, 0x0F] ∧
    [0, 1, 2, 3, 4, 5, 6, 7].map (tableGet exInstance.gen2.table) =
      [0x19, 0xCB, 0x42, 0x67, 0xC2, 0xEE, 0x41, 0x7F] := by
  have e1 : exInstance.gen1 = exKeyed.keyedGenerator #v[0x01, 0x02, 0x03, 0x04] := by
    simp [exInstance, State.construct]
  have e2 : exInstance.gen2 = exKeyed.keyedGenerator #v[0x82, 0x83, 0x84, 0x81] := by
    rw [exInstance, State.construct, ← test_deriveNonce2.1]
    simp
  rw [e1, e2]
  obtain ⟨t1, -, y1⟩ := exGen1_holds
  obtain ⟨t2, -, y2⟩ := exGen2_holds
  rw [← funext t1, ← funext t2, ← y1, ← y2]
  decide +kernel

/-- V-SRC-4: NONCE_LEN = 3 completes with STATUS 0x10 from reset. -/
theorem test_init_nonce_length_3 :
    onNext (fun t => { exReset with result := t.statusWord })
      (exec .init (exKeyed.setRegs { exKeyed.regs with nonceLen := 3 })) =
    .next { exReset with result := 0x10 } := by
  rfl

/-- V-INIT-SEED: INIT_SEED with NONCE_LEN = 0 builds the same tables as INIT with NONCE_LEN = 4. -/
theorem test_initSeed_ignores_nonceLen :
    exec .initSeed (exKeyed.setRegs { exKeyed.regs with nonceLen := 0 }) =
      .next (exInstance.setRegs { exKeyed.regs with nonceLen := 0 }) := by
  rw [exec_construct (.inr rfl)]
  simp only [constructCheck]
  rw [State.validateKey_none (by decide), State.unlessError_none, exInstance]
  congr 1

/-- V-RST-2 for INIT_SEED: an empty key gives STATUS 0x10 (R191). -/
theorem test_initSeed_empty_key : ∃ t, exec .initSeed exReset = .next t ∧ t.statusWord = 0x10 :=
  ⟨_, rfl, rfl⟩

/-! ### TRANSFORM and TRANSFORM_FINAL -/

/-- V-NEXT: the first six combined bytes of the example construction. -/
theorem test_keystream :
    [0, 1, 2, 3, 4, 5].map (keystream (exKeyed.keyedGenerator #v[0x01, 0x02, 0x03, 0x04])
        (exKeyed.keyedGenerator #v[0x82, 0x83, 0x84, 0x81])) =
      [0xDA, 0x27, 0x68, 0xF6, 0x30, 0x84] := by
  rw [← funext (packed_keystream exGen1_holds exGen2_holds)]
  decide +kernel

/-- V-XF-1's operands: "Hello, world!" at DMEM 0x000, output at 0x100, COUNT 13, READY with the
generators of the example construction. -/
def exHello : State :=
  { exReset with
    lstate := .ready
    gen1 := exKeyed.keyedGenerator #v[0x01, 0x02, 0x03, 0x04]
    gen2 := exKeyed.keyedGenerator #v[0x82, 0x83, 0x84, 0x81]
    dmem := [(0, 0x48), (1, 0x65), (2, 0x6C), (3, 0x6C), (4, 0x6F), (5, 0x2C), (6, 0x20), (7, 0x77),
      (8, 0x6F), (9, 0x72), (10, 0x6C), (11, 0x64), (12, 0x21)]
    regs := { HostRegs.zero with
      argf := 3, inLen := 13, count := 13, outBase := 0x100, outLen := 13 } }

/-- What either transform stores when its input starts at 0x000 and its output past it. -/
theorem example_output {s : State} (hw : Memory.wf s.dmemInit s.dmem) {n ob : Nat}
    (h1 : s.regs.inBase = 0) (h2 : s.regs.inOff = 0) (h3 : s.countOf = n)
    (h4 : s.regs.outBase.toNat = ob) (h5 : s.regs.outOff = 0) (hn : n ≤ ob) (final : Bool) {i : Nat}
    (hi : i < n) :
    (transformed final s).memRead (ob + i) = s.memRead i ^^^ keystream s.gen1 s.gen2 i := by
  have ha : s.inAddr i = i := by simp [State.inAddr, State.inBuffer, State.inOffset, h1, h2]
  have hx : (xorStream ob 0 s n).memRead (ob + i) = s.memRead i ^^^ keystream s.gen1 s.gen2 i := by
    have ho := memRead_xorStream_out ob 0 hw hi
    have hr : (xorStream ob 0 s i).memRead i = s.memRead i :=
      memRead_xorStream_of_ne ob 0 hw fun j _ => by simp only [outAddr]; omega
    rwa [ha, hr, outAddr, Nat.add_zero] at ho
  cases final
  · simpa [transformed, h3, State.outBuffer, State.outOffset, h4, h5] using hx
  · simpa [transformed, h3, State.freshBuffer, h4] using hx

/-- V-XF-1 and V-XF-2: the 13 bytes at DMEM 0x100, and RESULT, after TRANSFORM and TRANSFORM_FINAL. -/
theorem test_transform_hello (final : Bool) :
    ∃ t, exec (transformInstr final) exHello = .next t ∧ t.result = 13 ∧ t.err = .none ∧
      (List.range 13).map (fun i => t.memRead (0x100 + i)) =
        [0x92, 0x42, 0x04, 0x9A, 0x5F, 0xA8, 0x83, 0xFA, 0x1A, 0xC8, 0xC6, 0x40, 0x24] := by
  have hw : Memory.wf exHello.dmemInit exHello.dmem := by decide
  have hc : transformCheck final exHello = none := by cases final <;> rfl
  have hm : (List.range 13).map (fun i => (transformed final exHello).memRead (0x100 + i)) =
      (List.range 13).map fun i => exHello.memRead i ^^^
        combine (packedSteps exGen1 (i + 1)).byte (packedSteps exGen2 (i + 1)).byte :=
    List.map_congr_left fun i hi => by
      have h4 : exHello.regs.outBase.toNat = 0x100 := rfl
      have h3 : exHello.countOf = 13 := rfl
      rw [example_output hw rfl rfl h3 h4 rfl (by decide) final (List.mem_range.1 hi),
        packed_keystream exGen1_holds exGen2_holds]
      rfl
  refine ⟨(transformed final exHello).succeed 13, ?_, rfl, rfl, Eq.trans hm (by decide +kernel)⟩
  rw [exec_transformInstr, hc]
  rfl

/-- V-ERR-7: IN_OFF = 0xFFFFFFFF with COUNT = 2 is OUT_OF_RANGE; the sum does not wrap. STATUS 0x22. -/
theorem test_transform_offset_does_not_wrap :
    ∃ t, exec .transform (exReady.setRegs { exReady.regs with inOff := 0xFFFFFFFF }) = .next t ∧
      t.statusWord = 0x22 := ⟨_, rfl, by decide⟩

/-- V-ERR-4 (the descriptor is checked before the slice): STATUS 0x12. -/
theorem test_transform_descriptor_first :
    ∃ t, exec .transform (exReady.setRegs
        { exReady.regs with inBase := 0x1FE, inOff := 2, count := 3 }) = .next t ∧
      t.statusWord = 0x12 := ⟨_, rfl, by decide⟩

/-- V-ERR-8: OUT_BASE = 0x1FE with COUNT = 4 is INVALID_ARGUMENT. STATUS 0x12. -/
theorem test_transformFinal_region_outside_DMEM :
    ∃ t, exec .transformFinal (exReady.setRegs
        { exReady.regs with argf := 1, count := 4, outBase := 0x1FE }) = .next t ∧
      t.statusWord = 0x12 := ⟨_, rfl, by decide⟩

/-- V-ERR-9: OUT_BASE = 0x1FC with OUT_LEN = 0 and no OUT_PRESENT succeeds with RESULT 4. -/
theorem test_transformFinal_ignores_OUT_LEN :
    ∃ t, exec .transformFinal (exReady.setRegs
        { exReady.regs with argf := 1, count := 4, outBase := 0x1FC, outLen := 0 }) = .next t ∧
      t.err = .none ∧ t.result = 4 := ⟨_, rfl, rfl, rfl⟩

/-- By hand from R173 on the identity tables: k1 = 02, 05 (V-PRGA-1, V-PRGA-2) and k2 = 00, 02 (from
(255, 0), V-PRGA-3, then V-PRGA-1), so k = 42, A7; with the output one byte ahead of the input the second
position reads the first one's byte. -/
theorem test_transform_overlap :
    ∃ t, exec .transform (exReady.setRegs { exReady.regs with outBase := 1 }) = .next t ∧
      [0, 1, 2, 3].map t.memRead = [0x00, 0x42, 0xE5, 0x00] := ⟨_, rfl, by decide +kernel⟩

/-! ### DISPOSE -/

/-- V-LC-3: DISPOSE from READY: STATUS 0x04, and the tables, cursors and KEY RAM are zero. -/
theorem test_dispose_clears :
    ∃ t, exec .dispose { exKeyed with lstate := .ready, gen1 := ⟨idTable, 3, 5⟩ } = .next t ∧
      t.statusWord = 0x04 ∧ t.gen1 = Generator.zero ∧ t.keyRam = zeroTable ∧ t.regs = exKeyed.regs :=
  ⟨_, rfl, rfl, rfl, rfl, rfl⟩

/-- V-LC-7: TRANSFORM after it completes with STATUS 0x44. -/
theorem test_transform_after_dispose :
    ∃ t, exec .transform (disposed exReady) = .next t ∧ t.statusWord = 0x44 := ⟨_, rfl, rfl⟩

/-! ### Bus, interlock and reset -/

/-- V-BUS-1 and V-BUS-3: byte writes, a word read, and a misaligned write that does nothing. -/
theorem test_bus_data_window :
    let s := ((((exReset.busWrite .byte 0x1000 0x11).busWrite .byte 0x1001 0x22).busWrite
      .byte 0x1002 0x33).busWrite .byte 0x1003 0x44).busWrite .word 0x1002 0xFFFFFFFF
    s.busRead .word 0x1000 = 0x44332211 ∧ s.busRead .byte 0x1002 = 0x33 ∧
      s.busRead .word 0x1002 = 0 := by decide

/-- V-BUS-4 and V-BUS-7: ARGF's reserved bits read 0; a byte write to a register does nothing. -/
theorem test_bus_registers :
    (exReset.busWrite .word 0x018 0xFFFFFFFF).busRead .word 0x018 = 3 ∧
    (exReset.busWrite .byte 0x010 0x55).busRead .word 0x010 = 0 := by decide

/-- V-BUS-5: a word in the key window reads 0, and its bytes are 78 56 34 12. -/
theorem test_bus_key_window :
    (exReset.busWrite .word 0x104 0x12345678).busRead .word 0x104 = 0 ∧
    [4, 5, 6, 7].map (tableGet (exReset.busWrite .word 0x104 0x12345678).keyRam) =
      [0x78, 0x56, 0x34, 0x12] := by decide +kernel

/-- V-BUSY-1: a STATUS read before the completion returns 0x03 in READY. -/
theorem test_status_read_while_busy :
    ∃ t, step { exReady with
        busy := true, cmdLatch := 3, inputs := [r32 exParams 0x004, .engine] } = .next t ∧
      t.replies = [0x03] ∧ t.busy = true ∧ t.inputs = [.engine] := ⟨_, rfl, rfl, rfl, rfl⟩

/-- V-BUSY-3: with INIT running, the write of DISPOSE is held; the step is the completion. -/
theorem test_held_command :
    ∃ t, step (exBusy 1 (scriptCommand exParams .dispose)) = .next t ∧ t.busy = false ∧
      t.cmdLatch = 1 ∧ t.inputs = scriptCommand exParams .dispose := ⟨_, rfl, rfl, rfl, rfl⟩

/-- V-ENC-5: the word 0x00000103 in UNINITIALIZED gives STATUS 0x50. -/
theorem test_illegal_before_not_ready :
    ∃ t, step (exBusy 0x00000103 []) = .next t ∧ t.statusWord = 0x50 := ⟨_, rfl, rfl⟩

/-- V-RST-4: after reset, TRANSFORM gives STATUS 0x30, as the first word of `State.reset` too. -/
theorem test_transform_after_reset :
    (∃ t, step (exReset.withFetchWord 32 3) = .next t ∧ t.statusWord = 0x30) ∧
    ∃ t, step (State.reset.withFetchWord 32 3) = .next t ∧ t.statusWord = 0x30 :=
  ⟨⟨_, rfl, rfl⟩, _, rfl, rfl⟩

/-- V-RST-5 and U11: a reset with a held read of RESULT answers it with 0 and does not perform it. -/
theorem test_reset_cancels :
    ∃ t, step { exBusy 5 [r32 exParams 0x008, .reset [0xAB] true] with result := 7 } = .next t ∧
      t.replies = [0] ∧ t.statusWord = 0 ∧ t.memRead 0 = 0xAB ∧ t.memRead 1 = 0x00 :=
  ⟨_, rfl, rfl, rfl, rfl, rfl⟩

/-! ### Witnesses: states and operands that meet the hypotheses of each statement, clause by clause -/

/-- An entry of a table given by its entries. -/
theorem tableGet_tableOf (f : Nat → Byte) (i : Byte) : tableGet (tableOf f) i = f i.toNat := by
  simp [tableGet, tableOf]

/-- A key byte of a KEY RAM given by its bytes. -/
theorem keyByte_exKeyRam (bytes : List Byte) (n : Nat) (i : Byte) :
    keyByte (exKeyRam bytes) n i = bytes.getD (i.toNat % n) 0 := by
  simp [keyByte, keyRead, exKeyRam, tableOf]

/-- The identity table is a permutation. -/
theorem idTable_isPermutation : IsPermutation idTable := by
  rw [isPermutation_iff_bijective]
  have h : tableGet idTable = id := funext fun i => by
    rw [idTable, tableGet_tableOf]
    simp
  rw [h]
  exact Function.bijective_id

theorem witness_DecodingInvertsEncoding : Instr.dispose.wellFormed = true := rfl

/-- MBZ not zero (lowest and highest bit), and the reserved OPCODEs 0x00, 0x06 and 0xFF. -/
theorem witness_IllegalWordCompletesWithIllegalCommand :
    (exBusy 0x00000101 []).cmdLatch.extractLsb' 8 24 ≠ 0 ∧
    (exBusy 0x80000003 []).cmdLatch.extractLsb' 8 24 ≠ 0 ∧
    ((exBusy 0 []).cmdLatch.extractLsb' 8 24 = 0 ∧ (exBusy 0 []).cmdLatch.extractLsb' 0 8 = 0) ∧
    ((exBusy 6 []).cmdLatch.extractLsb' 8 24 = 0 ∧
      6 ≤ ((exBusy 6 []).cmdLatch.extractLsb' 0 8).toNat) ∧
    ((exBusy 0xFF []).cmdLatch.extractLsb' 8 24 = 0 ∧
      6 ≤ ((exBusy 0xFF []).cmdLatch.extractLsb' 0 8).toNat) := by decide

theorem witness_CompletionStepRunsTheDecodedCommand :
    ((exBusy 1 [.engine]).busy = true ∧ decode (exBusy 1 [.engine]).cmdLatch = .command .init ∧
      (exBusy 1 [.engine]).inputs = .engine :: []) ∧
    ((exBusy 5 []).busy = true ∧ decode (exBusy 5 []).cmdLatch = .command .dispose ∧
      (exBusy 5 []).inputs = []) ∧
    decode (BitVec.ofNat 32 3) = .command .transform := ⟨⟨rfl, rfl, rfl⟩, ⟨rfl, rfl, rfl⟩, rfl⟩

/-- A STATUS read; and a held write with a read behind it, with the ENGINE's turn to come and without. -/
theorem witness_BusyHoldsEveryAccessButAStatusRead :
    let a : Access := .write .word (exAt 0) 5
    let b : Access := .read .word (exAt 4)
    ((exBusy 1 [.access b]).busy = true ∧
      (exBusy 1 [.access b]).inputs = .access (.read .word (exParams.blockBase + 0x004)) :: []) ∧
    ((exBusy 1 [.access a, .access b, .engine]).busy = true ∧
      a ≠ .read .word (exParams.blockBase + 0x004) ∧
      (exBusy 1 [.access a, .access b, .engine]).inputs =
        .access a :: ([b].map .access ++ [.engine]) ∧ [Input.engine] = .engine :: []) ∧
    ((exBusy 1 [.access a]).busy = true ∧
      (exBusy 1 [.access a]).inputs = .access a :: (([] : List Access).map .access ++ [])) :=
  ⟨⟨rfl, rfl⟩, ⟨rfl, by decide, rfl, rfl⟩, rfl, rfl⟩

/-- The lowest and the highest block offset, read and written. -/
theorem witness_IdleAccessIsPerformedInOneStep :
    let lo := exIdle [.access (.read .byte (exParams.blockBase + 0))]
    let hi := exIdle [.access (.write .word (exParams.blockBase + (2 ^ 32 - 1)) 7)]
    (lo.busy = false ∧ 0 < 2 ^ 32 ∧
      lo.inputs = .access (.read .byte (lo.params.blockBase + 0)) :: []) ∧
    (hi.busy = false ∧ 2 ^ 32 - 1 < 2 ^ 32 ∧
      hi.inputs = .access (.write .word (hi.params.blockBase + (2 ^ 32 - 1)) 7) :: []) :=
  ⟨⟨rfl, by decide, rfl⟩, rfl, by decide, rfl⟩

theorem witness_IdleCmdWriteAcceptsTheWord :
    ((exIdle [w32 exParams 0x000 3]).busy = false ∧ (exIdle [w32 exParams 0x000 3]).inputs =
      .access (.write .word (exParams.blockBase + 0x000) 3) :: []) ∧
    ∃ t, (exBusy 3 [r32 exParams 0x004]).busy = true ∧
      step (exBusy 3 [r32 exParams 0x004]) = .next t ∧ t.busy = true :=
  ⟨⟨rfl, rfl⟩, _, rfl, rfl, rfl⟩

theorem witness_NothingChangesWhileACommandRuns :
    ∃ t, (exBusy 3 [r32 exParams 0x004]).busy = true ∧
      step (exBusy 3 [r32 exParams 0x004]) = .next t ∧
      (∀ rest, (exBusy 3 [r32 exParams 0x004]).nextMove ≠ .complete rest) ∧
      ∀ draw ans held rest, (exBusy 3 [r32 exParams 0x004]).nextMove ≠ .reset draw ans held rest := by
  have h : (exBusy 3 [r32 exParams 0x004]).nextMove =
      .perform (.read .word (exParams.blockBase + 0x004)) [] := rfl
  exact ⟨_, rfl, rfl, fun _ => by rw [h]; simp, fun _ _ _ _ => by rw [h]; simp⟩

theorem witness_AcceptedCommandCompletes : (exBusy 1 [r32 exParams 0x004]).busy = true := rfl

/-- An acceptance, a completion and a reset. -/
theorem witness_BusyIsSetByAcceptanceAndClearedByCompletionOrReset :
    (∃ t, step (exIdle [w32 exParams 0x000 3]) = .next t ∧ (exIdle [w32 exParams 0x000 3]).busy = false ∧
      (exIdle [w32 exParams 0x000 3]).nextMove =
        .perform (.write .word (exParams.blockBase + 0x000) 3) [] ∧ t.busy = true) ∧
    (∃ t, step (exBusy 3 [.engine]) = .next t ∧ (exBusy 3 [.engine]).busy = true ∧ t.busy = false ∧
      (exBusy 3 [.engine]).nextMove = .complete []) ∧
    ∃ t, step (exBusy 3 [.reset [] true]) = .next t ∧ (exBusy 3 [.reset [] true]).busy = true ∧
      t.busy = false ∧ (exBusy 3 [.reset [] true]).nextMove = .reset [] true [] [] :=
  ⟨⟨_, rfl, rfl, rfl, rfl⟩, ⟨_, rfl, rfl, rfl, rfl⟩, _, rfl, rfl, rfl, rfl⟩

theorem witness_OutcomeKeepsUntilCompletionOrReset :
    ∃ t, step (exIdle [w32 exParams 0x00C 8]) = .next t ∧
      (∀ rest, (exIdle [w32 exParams 0x00C 8]).nextMove ≠ .complete rest) ∧
      ∀ draw ans held rest, (exIdle [w32 exParams 0x00C 8]).nextMove ≠ .reset draw ans held rest := by
  have h : (exIdle [w32 exParams 0x00C 8]).nextMove =
      .perform (.write .word (exParams.blockBase + 0x00C) 8) [] := rfl
  exact ⟨_, rfl, fun _ => by rw [h]; simp, fun _ _ _ _ => by rw [h]; simp⟩

theorem witness_OnlyResetEntersUninitialized :
    ∃ t, step (exReady.setInputs [.reset [] false]) = .next t ∧
      (exReady.setInputs [.reset [] false]).lstate ≠ .uninitialized ∧ t.lstate = .uninitialized :=
  ⟨_, rfl, by decide, rfl⟩

theorem witness_TablesAndCursorsChangeOnlyByASuccessOrReset :
    ∃ t, step { exReady with gen1 := ⟨idTable, 1, 0⟩, cmdLatch := 5, busy := true } = .next t ∧
      t.gen1 ≠ ⟨idTable, 1, 0⟩ := by
  refine ⟨_, rfl, fun h => ?_⟩
  exact absurd (congrArg Generator.x h) (by decide)

/-- KEYLEN = 0; NONCE_LEN = 3 and 5; and the accepted case. -/
theorem witness_InitValidatesThenConstructs :
    exReset.regs.keylen = 0 ∧ (exKeyed.setRegs { exKeyed.regs with nonceLen := 3 }).regs.nonceLen ≠ 4 ∧
    (exKeyed.setRegs { exKeyed.regs with nonceLen := 5 }).regs.nonceLen ≠ 4 ∧
    exKeyed.regs.keylen ≠ 0 ∧ exKeyed.regs.nonceLen = 4 := by decide

theorem witness_InitSeedIsInitOnTheSeedBytes :
    exReset.regs.keylen = 0 ∧ exKeyed.regs.keylen ≠ 0 ∧ exKeyed.regs.nonceLen = 4 := by decide

theorem witness_ConstructionEndsWithZeroXAndPermutations :
    (∃ t, exec .init exKeyed = .next t ∧ t.err = .none) ∧
    ∃ t, exec .initSeed exKeyed = .next t ∧ t.err = .none := ⟨⟨_, rfl, rfl⟩, _, rfl, rfl⟩

/-- A construction that succeeds and one that fails; a disposal; a transform from each lifecycle state;
an illegal word; a reset. -/
theorem witness_LifecycleTransitionsFollowTheTable :
    (∃ t, exec .init exKeyed = .next t ∧ t.err = .none) ∧
    (∃ t, exec .init exReset = .next t ∧ t.err ≠ .none) ∧
    (∃ t, exec .dispose exReset = .next t) ∧
    (∃ t, exec (transformInstr false) exReset = .next t ∧ exReset.lstate = .uninitialized) ∧
    (∃ t, exec (transformInstr true) (disposed exReady) = .next t ∧
      (disposed exReady).lstate = .disposed) ∧
    (∃ t, decode (exBusy 0 []).cmdLatch = .illegal .reservedOpcode ∧
      completeCommand (exBusy 0 []) = .next t) ∧
    ∃ t, (exIdle [.reset [1] true]).nextMove = .reset [1] true [] [] ∧
      step (exIdle [.reset [1] true]) = .next t :=
  ⟨⟨_, rfl, rfl⟩, ⟨_, rfl, by decide⟩, ⟨_, rfl⟩, ⟨_, rfl, rfl⟩, ⟨_, rfl, rfl⟩, ⟨_, rfl, rfl⟩, _, rfl, rfl⟩

theorem witness_ErrorChangesOnlyErrResultAndBusy :
    ∃ t, completeCommand (exBusy 3 []) = .next t ∧ t.err ≠ .none := ⟨_, rfl, by decide⟩

/-- Each code that a command raises, and both kinds of RESULT. -/
theorem witness_ErrorCodesAndResultComeFromTheListedCommands :
    (∃ t, exec .init exReset = .next t ∧ t.err = .invalidArgument) ∧
    (∃ t, exec .transform (exReady.setRegs { exReady.regs with count := 5 }) = .next t ∧
      t.err = .outOfRange) ∧
    (∃ t, exec .transformFinal exReset = .next t ∧ t.err = .notReady) ∧
    (∃ t, exec .transform (disposed exReady) = .next t ∧ t.err = .disposed) ∧
    (∃ t, exec .transform exReady = .next t ∧ t.err = .none) ∧
    ∃ t, exec .dispose exReady = .next t :=
  ⟨⟨_, rfl, rfl⟩, ⟨_, rfl, rfl⟩, ⟨_, rfl, rfl⟩, ⟨_, rfl, rfl⟩, ⟨_, rfl, rfl⟩, _, rfl⟩

theorem witness_CommandsKeepRegistersKeyAndDmem :
    (∃ t, exec .init exKeyed = .next t) ∧ ∃ t, exec .transform exReady = .next t :=
  ⟨⟨_, rfl⟩, _, rfl⟩

/-- Each clause, with a descriptor one byte past the end of DMEM and a slice one byte past its buffer. -/
theorem witness_TransformErrorsInPriorityOrder :
    (disposed exReady).lstate = .disposed ∧ exReset.lstate = .uninitialized ∧
    (exReady.lstate = .ready ∧ (exReady.setRegs { exReady.regs with argf := 1 }).regs.argf[1] = false) ∧
    ((exReady.setRegs { exReady.regs with inBase := 0x1FD }).regs.inBase.toNat +
      exReady.regs.inLen.toNat > exParams.dmemSize) ∧
    ((exReady.setRegs { exReady.regs with outBase := 0x1FD }).regs.outBase.toNat +
      exReady.regs.outLen.toNat > exParams.dmemSize) ∧
    (exReady.regs.argf[0] = true ∧ exReady.regs.argf[1] = true ∧
      exReady.regs.inBase.toNat + exReady.regs.inLen.toNat ≤ exParams.dmemSize ∧
      exReady.regs.outBase.toNat + exReady.regs.outLen.toNat ≤ exParams.dmemSize ∧
      (exReady.setRegs { exReady.regs with inOff := 3 }).regs.inOff.toNat + exReady.regs.count.toNat >
        exReady.regs.inLen.toNat) := by decide

/-- Each clause, with a region one byte past the end of DMEM and a slice one byte past its buffer. -/
theorem witness_TransformFinalErrorsInPriorityOrder :
    (disposed exReady).lstate = .disposed ∧ exReset.lstate = .uninitialized ∧
    (exReady.lstate = .ready ∧ (exReady.setRegs { exReady.regs with argf := 2 }).regs.argf[0] = false) ∧
    ((exReady.setRegs { exReady.regs with inBase := 0x1FD }).regs.inBase.toNat +
      exReady.regs.inLen.toNat > exParams.dmemSize) ∧
    ((exReady.setRegs { exReady.regs with outBase := 0x1FF }).regs.outBase.toNat +
      exReady.regs.count.toNat > exParams.dmemSize) ∧
    (exReady.regs.argf[0] = true ∧
      exReady.regs.inBase.toNat + exReady.regs.inLen.toNat ≤ exParams.dmemSize ∧
      exReady.regs.outBase.toNat + exReady.regs.count.toNat ≤ exParams.dmemSize ∧
      (exReady.setRegs { exReady.regs with inOff := 3 }).regs.inOff.toNat + exReady.regs.count.toNat >
        exReady.regs.inLen.toNat) := by decide

/-- exReady with its input buffer ending at DMEM_SIZE and its slices ending at their buffers' ends. -/
def exReadyAtTheEnds : State := exReady.setRegs { exReady.regs with inBase := 0x1FC, inOff := 2, outOff := 2 }

theorem witness_TransformXorsTheStream :
    Memory.wf exReadyAtTheEnds.dmemInit exReadyAtTheEnds.dmem ∧ exReadyAtTheEnds.lstate = .ready ∧
    exReadyAtTheEnds.regs.argf[0] = true ∧ exReadyAtTheEnds.regs.argf[1] = true ∧
    exReadyAtTheEnds.regs.inBase.toNat + exReadyAtTheEnds.regs.inLen.toNat ≤
      exReadyAtTheEnds.params.dmemSize ∧
    exReadyAtTheEnds.regs.outBase.toNat + exReadyAtTheEnds.regs.outLen.toNat ≤
      exReadyAtTheEnds.params.dmemSize ∧
    exReadyAtTheEnds.regs.inOff.toNat + exReadyAtTheEnds.regs.count.toNat ≤
      exReadyAtTheEnds.regs.inLen.toNat ∧
    exReadyAtTheEnds.regs.outOff.toNat + exReadyAtTheEnds.regs.count.toNat ≤
      exReadyAtTheEnds.regs.outLen.toNat ∧ exReadyAtTheEnds.regs.count.toNat = 2 := by decide

theorem witness_TransformFinalXorsTheStream :
    Memory.wf exReadyAtTheEnds.dmemInit exReadyAtTheEnds.dmem ∧ exReadyAtTheEnds.lstate = .ready ∧
    exReadyAtTheEnds.regs.argf[0] = true ∧
    exReadyAtTheEnds.regs.inBase.toNat + exReadyAtTheEnds.regs.inLen.toNat ≤
      exReadyAtTheEnds.params.dmemSize ∧
    exReadyAtTheEnds.regs.outBase.toNat + exReadyAtTheEnds.regs.count.toNat ≤
      exReadyAtTheEnds.params.dmemSize ∧
    exReadyAtTheEnds.regs.inOff.toNat + exReadyAtTheEnds.regs.count.toNat ≤
      exReadyAtTheEnds.regs.inLen.toNat := by decide

/-- V-XF-8: COUNT = 0 with both offsets at their buffers' ends. -/
theorem witness_ZeroCountTransformStepsNothing :
    let s := exReady.setRegs { exReady.regs with count := 0, inOff := 4, outOff := 4 }
    (s.regs.count = 0 ∧ ∃ t, exec (transformInstr false) s = .next t ∧ t.err = .none) ∧
    ∃ t, exec (transformInstr true) s = .next t ∧ t.err = .none :=
  ⟨⟨rfl, _, rfl, rfl⟩, _, rfl, rfl⟩

theorem witness_CursorXCountsPositions :
    (∃ t, exec .initSeed exKeyed = .next t ∧ t.err = .none) ∧
    ∃ t, exec (transformInstr true) exReady = .next t ∧ t.err = .none := ⟨⟨_, rfl, rfl⟩, _, rfl, rfl⟩

/-- The input and output regions of exReady are disjoint. -/
theorem exReady_noOverlap (final : Bool) : exReady.noOverlap final := by
  intro i j hi hj _
  have hi' : i < 2 := hi
  have hj' : j < 2 := hj
  cases final
  · show 0 + 0 + i ≠ 0x10 + 0 + j
    omega
  · show 0 + 0 + i ≠ 0x10 + 0 + j
    omega

/-- exReady after its TRANSFORM, with the generators of exReady again, reading what was written. -/
def exReadyBack (t : State) : State :=
  { t with
    gen1 := exReady.gen1
    gen2 := exReady.gen2
    regs := { exReady.regs with inBase := 0x10, outBase := 0x20 } }

/-- A TRANSFORM of exReady, and the TRANSFORM of exReadyBack that undoes it. -/
theorem exReadyBack_meets (t : State) (ht : exec (transformInstr false) exReady = .next t) :
    Memory.wf (exReadyBack t).dmemInit (exReadyBack t).dmem ∧
    (∃ v, exec (transformInstr false) (exReadyBack t) = .next v ∧ v.err = .none) ∧
    (exReadyBack t).noOverlap false ∧
    ∀ i, i < exReady.regs.count.toNat →
      (exReadyBack t).memRead ((exReadyBack t).inAddr i) = t.memRead (exReady.storeAddr false i) := by
  have h : exec (transformInstr false) exReady =
      .next ((transformed false exReady).succeed exReady.regs.count) := rfl
  rw [h, Host.Outcome.next.injEq] at ht
  subst ht
  refine ⟨?_, ⟨_, rfl, rfl⟩, ?_, ?_⟩
  · have hw : Memory.wf exReady.dmemInit exReady.dmem := by decide
    exact xorStream_wf _ _ hw _
  · intro i j hi hj _
    have hi' : i < 2 := hi
    have hj' : j < 2 := hj
    show 0x10 + 0 + i ≠ 0x20 + 0 + j
    omega
  · intro i _
    rfl

theorem witness_TransformIsItsOwnInverse : ∃ t v,
    Memory.wf exReady.dmemInit exReady.dmem ∧
    Memory.wf (exReadyBack t).dmemInit (exReadyBack t).dmem ∧
    exec (transformInstr false) exReady = .next t ∧ t.err = .none ∧
    exec (transformInstr false) (exReadyBack t) = .next v ∧ v.err = .none ∧
    (exReadyBack t).gen1 = exReady.gen1 ∧ (exReadyBack t).gen2 = exReady.gen2 ∧
    (exReadyBack t).regs.count = exReady.regs.count ∧ exReady.noOverlap false ∧
    (exReadyBack t).noOverlap false ∧
    ∀ i, i < exReady.regs.count.toNat →
      (exReadyBack t).memRead ((exReadyBack t).inAddr i) = t.memRead (exReady.storeAddr false i) := by
  obtain ⟨t, ht, he⟩ : ∃ t, exec (transformInstr false) exReady = .next t ∧ t.err = .none :=
    ⟨_, rfl, rfl⟩
  obtain ⟨hw, ⟨v, hv, hve⟩, ho, hm⟩ := exReadyBack_meets t ht
  exact ⟨t, v, by decide, hw, ht, he, hv, hve, rfl, rfl, rfl, exReady_noOverlap false, ho, hm⟩

/-- A block with these generators, given the output of exHello as its input. -/
def exHelloBack (g1 g2 : Generator) (t : State) : State :=
  { t with
    lstate := .ready
    gen1 := g1
    gen2 := g2
    regs := { HostRegs.zero with
      argf := 3, inBase := 0x100, inLen := 13, count := 13, outBase := 0x180, outLen := 13 }
    params := exParams }

/-- Its input bytes are the output bytes of exHello, its regions do not overlap, and its TRANSFORM_FINAL
succeeds. -/
theorem exHelloBack_meets (g1 g2 : Generator) (t : State) (hw : Memory.wf t.dmemInit t.dmem) :
    Memory.wf (exHelloBack g1 g2 t).dmemInit (exHelloBack g1 g2 t).dmem ∧
    (∃ v, exec (transformInstr true) (exHelloBack g1 g2 t) = .next v ∧ v.err = .none) ∧
    (exHelloBack g1 g2 t).noOverlap true ∧
    ∀ p, (exHelloBack g1 g2 t).memRead ((exHelloBack g1 g2 t).inAddr p) = t.memRead (0x100 + 0 + p) := by
  refine ⟨hw, ?_, ?_, fun p => rfl⟩
  · have hc : transformCheck true (exHelloBack g1 g2 t) = none := by
      rw [transformCheck_true_eq_none]
      refine ⟨rfl, ?_, ?_, ?_, ?_⟩
      · show (3 : BitVec 2)[0] = true
        decide
      · show 0x100 + 13 ≤ 0x200
        omega
      · show 0x180 + 13 ≤ 0x200
        omega
      · show 0 + 13 ≤ 13
        omega
    refine ⟨(transformed true (exHelloBack g1 g2 t)).succeed (exHelloBack g1 g2 t).regs.count, ?_, rfl⟩
    rw [exec_transformInstr, hc]
    rfl
  · intro i j hi hj _
    have hi' : i < 13 := hi
    have hj' : j < 13 := hj
    show 0x100 + 0 + i ≠ 0x180 + 0 + j
    omega

/-- exHello is the example construction after n = 0 positions; a block constructed alike decrypts its
output. -/
theorem witness_DecryptingReturnsThePlaintext : ∃ s₁ t u v : State,
    exec .init exKeyed = .next s₁ ∧ s₁.err = .none ∧
    (∀ k : Byte, keyByte exKeyed.keyRam exKeyed.regs.keylen.toNat k =
      keyByte exKeyed.keyRam exKeyed.regs.keylen.toNat k) ∧
    exHello.gen1 = prgaSteps s₁.gen1 0 ∧ exHello.gen2 = prgaSteps s₁.gen2 0 ∧
    u.gen1 = prgaSteps s₁.gen1 0 ∧ u.gen2 = prgaSteps s₁.gen2 0 ∧
    Memory.wf exHello.dmemInit exHello.dmem ∧ Memory.wf u.dmemInit u.dmem ∧
    exec (transformInstr true) exHello = .next t ∧ t.err = .none ∧
    exec (transformInstr true) u = .next v ∧ v.err = .none ∧
    u.regs.count = exHello.regs.count ∧ exHello.noOverlap true ∧ u.noOverlap true ∧
    ∀ p, p < exHello.regs.count.toNat → u.memRead (u.inAddr p) = t.memRead (exHello.storeAddr true p) := by
  have hw : Memory.wf exHello.dmemInit exHello.dmem := by decide
  have e1 : exInstance.gen1 = exHello.gen1 := by
    simp [exInstance, State.construct, exHello]
  have e2 : exInstance.gen2 = exHello.gen2 := by
    have h : exHello.gen2 = exKeyed.keyedGenerator #v[0x82, 0x83, 0x84, 0x81] := by simp [exHello]
    rw [exInstance, State.construct, h, ← test_deriveNonce2.1]
    simp
  have hg : exHello.noOverlap true := by
    intro i j hi hj _
    have hi' : i < 13 := hi
    have hj' : j < 13 := hj
    show 0 + 0 + i ≠ 0x100 + 0 + j
    omega
  obtain ⟨t, ht, he⟩ : ∃ t, exec (transformInstr true) exHello = .next t ∧ t.err = .none :=
    ⟨_, rfl, rfl⟩
  generalize hz1 : exInstance.gen1 = g1 at e1
  generalize hz2 : exInstance.gen2 = g2 at e2
  obtain ⟨hb, ⟨v, hv, hve⟩, ho, hm⟩ := exHelloBack_meets g1 g2 t (exec_transformInstr_wf ht he hw)
  refine ⟨exInstance, t, exHelloBack g1 g2 t, v, test_init_succeeds, rfl, fun _ => rfl, ?_, ?_, ?_, ?_,
    hw, hb, ht, he, hv, hve, rfl, hg, ho, fun p _ => hm p⟩
  · rw [prgaSteps, hz1, e1]
  · rw [prgaSteps, hz2, e2]
  · rw [prgaSteps, hz1]
    rfl
  · rw [prgaSteps, hz2]
    rfl

theorem witness_SplitTransformsGiveTheSameBytes :
    (1 : Word).toNat + (1 : Word).toNat = exReady.regs.count.toNat ∧
    (0 : Word).toNat + (2 : Word).toNat = exReady.regs.count.toNat ∧
    ∃ t, exec .transform exReady = .next t ∧ t.err = .none := ⟨rfl, rfl, _, rfl, rfl⟩

theorem witness_LcrEntriesFollowTheRecurrence :
    let n : Nonce := #v[0x01, 0x02, 0x03, 0x04]
    exParams.tableA[n[2].toNat % exParams.tableA.length]? = some 0x19 ∧
    exParams.tableC[n[3].toNat % exParams.tableC.length]? = some 0x13 := by decide

theorem witness_SchedulingAndStepsKeepPermutations : IsPermutation idTable := idTable_isPermutation

/-- V-KSA-6: the keys 41 and 41 41; and a KEYLEN of 300. -/
theorem witness_KeySchedulerReadsOnlyTheRepeatedKey :
    (∀ i : Byte, keyByte (exKeyRam [0x41]) 1 i = keyByte (exKeyRam [0x41, 0x41]) 2 i) ∧ 256 < 300 := by
  refine ⟨fun i => ?_, by decide⟩
  rw [keyByte_exKeyRam, keyByte_exKeyRam]
  rcases Nat.mod_two_eq_zero_or_one i.toNat with h | h <;> simp [h, Nat.mod_one]

/-- A key of one byte, the shortest; and in iteration 0 of the schedule of the key [0x00] on the identity
table an entry that the exchange keeps. -/
theorem witness_KeySchedulerSchedulesThenDrops : 0 < 1 ∧ (5 : Byte) ≠ 0 ∧
    (5 : Byte) ≠ (scheduleSteps (exKeyRam [0x00]) 1 idTable 1).1 := by decide +kernel

/-- An entry that a step from (0, 0) on the identity table keeps. -/
theorem witness_PrgaStepAdvancesCursorsAndSwaps :
    (2 : Byte) ≠ (0 : Byte) + 1 ∧ (2 : Byte) ≠ 0 + tableGet idTable (0 + 1) ∧ IsPermutation idTable :=
  ⟨by decide, by decide +kernel, idTable_isPermutation⟩

/-- V-SAME: the nonce 00 80 00 80. -/
theorem witness_NonceEqualToItsSecondGivesEqualKeystreams :
    let s := exKeyed.setRegs { exKeyed.regs with nonce := 0x80008000 }
    s.regs.keylen ≠ 0 ∧ s.regs.nonceLen = 4 ∧
      s.regs.nonce = ((0x00 : Byte) ^^^ 0x80) ++ (0x00 : Byte) ++ ((0x00 : Byte) ^^^ 0x80) ++ (0x00 : Byte) := by
  decide

/-- The key "password" with KEYLEN 8, against itself repeated with KEYLEN 16 and other DMEM. -/
theorem witness_ConstructionIsDeterministic :
    let u := { exKeyed with
      keyRam := exKeyRam [0x70, 0x61, 0x73, 0x73, 0x77, 0x6F, 0x72, 0x64,
        0x70, 0x61, 0x73, 0x73, 0x77, 0x6F, 0x72, 0x64]
      regs := { exKeyed.regs with keylen := 16 }
      dmem := [(3, 0x55)] }
    (∃ t, exec .init exKeyed = .next t ∧ t.err = .none) ∧
    (∃ v, exec .initSeed u = .next v ∧ v.err = .none) ∧
    (∀ k : Byte, keyByte exKeyed.keyRam exKeyed.regs.keylen.toNat k =
      keyByte u.keyRam u.regs.keylen.toNat k) ∧
    exKeyed.regs.nonce = u.regs.nonce ∧ exKeyed.params = u.params :=
  ⟨⟨_, rfl, rfl⟩, ⟨_, rfl, rfl⟩, fun k => by
    show keyByte (exKeyRam _) 8 k = keyByte (exKeyRam _) 16 k
    rw [keyByte_exKeyRam, keyByte_exKeyRam]
    revert k
    decide +kernel, rfl, rfl⟩

theorem witness_RegistersReadBackWhatWasWritten :
    (0x034 : Nat) ∈ [0x00C, 0x010, 0x014, 0x01C, 0x020, 0x024, 0x028, 0x02C, 0x030, 0x034] ∧
    (0x010 : Nat) ≠ 0x034 := by decide

/-- A misaligned word, a misaligned half word, and the last byte of the register window. -/
theorem witness_MisalignedOrNarrowAccessDoesNothing :
    ((Width.word, 4) ∈ [(Width.byte, 1), (Width.half, 2), (Width.word, 4)] ∧ 0x1002 % 4 ≠ 0) ∧
    ((Width.half, 2) ∈ [(Width.byte, 1), (Width.half, 2), (Width.word, 4)] ∧ 0x101 % 2 ≠ 0) ∧
    0x0FF < 0x100 := by decide

/-- The first and last offsets of the reserved ranges. -/
theorem witness_ReservedOffsetReadsZeroAndIgnoresWrites :
    (0x038 ≤ 0x038 ∧ 0x038 ≤ 0x0FF) ∧ (0x200 ≤ 0xFFF ∧ 0xFFF ≤ 0xFFF) ∧
    0x1000 + exParams.dmemSize ≤ 0x1200 := by decide

/-- The last word and the last byte of the key window. -/
theorem witness_KeyWindowIsWriteOnly :
    ((Width.word, 4) ∈ [(Width.byte, 1), (Width.half, 2), (Width.word, 4)] ∧ 0xFC < 256 ∧
      0xFC % 4 = 0) ∧
    (Width.byte, 1) ∈ [(Width.byte, 1), (Width.half, 2), (Width.word, 4)] ∧ 0xFF < 256 ∧
      0xFF % 1 = 0 := by decide

/-- The last word of the data window, and one of its lanes. -/
theorem witness_DataWindowIsLittleEndian :
    Memory.wf exReset.dmemInit exReset.dmem ∧
    (Width.word, 4) ∈ [(Width.byte, 1), (Width.half, 2), (Width.word, 4)] ∧
    0x1FC < exParams.dmemSize ∧ 0x1FC % 4 = 0 ∧ 3 < 4 := by decide

theorem witness_ReadsHaveNoEffectAndWritesAreIdempotent :
    Memory.wf exReset.dmemInit exReset.dmem ∧
    ¬ (Width.byte = .word ∧ exParams.blockBase = exReset.params.blockBase) ∧
    ¬ (Width.word = .word ∧ exParams.blockBase + 4 = exReset.params.blockBase) := by decide

theorem witness_HostAccessesRevealNoSecretState :
    let u := { exReset with gen1 := ⟨idTable, 1, 2⟩, keyRam := idTable }
    u = { exReset with gen1 := u.gen1, gen2 := u.gen2, keyRam := u.keyRam } := rfl

theorem witness_ResetAbandonsTheCommandAndHeldAccesses :
    let a : Access := .write .byte (exAt 0x1000) 1
    let b : Access := .read .word (exAt 0x008)
    let s := exBusy 1 [.access a, .access b, .reset [] true]
    (exIdle [.reset [] true]).inputs = .reset [] true :: [] ∧
    s.busy = true ∧ a ≠ .read .word (s.params.blockBase + 0x004) ∧
    s.inputs = .access a :: ([b].map .access ++ .reset [] true :: []) :=
  ⟨rfl, rfl, by decide, rfl⟩

/-- exReady meets the invariant and takes a step. -/
theorem witness_EveryStepKeepsTheInvariant :
    exReady.Inv ∧ ∃ t, step { exReady with busy := true, cmdLatch := 3 } = .next t := by
  refine ⟨⟨⟨fun _ => ⟨idTable_isPermutation, idTable_isPermutation⟩, fun h => absurd rfl h⟩,
    ⟨by decide, by decide⟩, ⟨fun h => absurd rfl h, fun h => absurd rfl h⟩⟩, _, rfl⟩
end

section
/-! PROOFS. The scope statements (00_scope.md): every step of the block answers a next state. -/

namespace Sys2Proof.Machine

/-- R13, R210, R218. An idle turn, an access and a reset answer a next state by themselves; a
completion does because every command and every illegal word does (`completeCommand_next`). -/
theorem takeMove_next (s : State) (m : Move) : ∃ t, takeMove s m = .next t := by
  cases m with
  | idle => exact ⟨_, rfl⟩
  | skip rest => exact ⟨_, rfl⟩
  | perform a rest => exact ⟨_, rfl⟩
  | complete rest => exact completeCommand_next (s.setInputs rest)
  | reset draw answers held rest => exact ⟨_, rfl⟩

/-- Settles O6: a step takes the next move, and every move answers a next state. -/
theorem everyStepAnswersANextState : Obligations.EveryStepAnswersANextState := fun s =>
  takeMove_next s s.nextMove

end Sys2Proof.Machine
end


section
/-! PROOFS. The invariant of the block's state (10_state.md): the tables a construction makes are
permutations, and every command, access and reset keeps `State.Inv`. -/

namespace Sys2Proof.Machine

/-! ### A construction's tables are permutations (40_initializer.md rule R116) -/

/-- The LCR fills a table with a permutation: its recurrence has period 256, so the 256 entries,
iterates 1 to 256 of the seed under one XOR, are distinct. -/
theorem lcr_isPermutation (p : Params) (n : Nonce) : IsPermutation (lcr p n) := by
  have : Finite Byte := Finite.of_injective BitVec.toFin fun _ _ => BitVec.eq_of_toFin_eq
  rw [isPermutation_iff_bijective, ← Finite.injective_iff_bijective]
  intro i j e
  have hper := lcrNext_minimalPeriod (selectMultiplier_mod p n) (selectIncrement_odd p n)
    (lcrNext (selectMultiplier p n) (selectIncrement p n) n[1])
  simp only [lcr, tableGet_lcrTable, BitVec.xor_right_inj, Function.iterate_succ_apply] at e
  exact BitVec.eq_of_toNat_eq
    (Function.iterate_injOn_Iio_minimalPeriod (hper ▸ i.isLt) (hper ▸ j.isLt) e)

/-- The scheduling and the drop keep the permutation the LCR made (41_ksa.md rule R132). -/
theorem State.keyedGenerator_isPermutation (s : State) (n : Nonce) :
    IsPermutation (s.keyedGenerator n).table :=
  prgaSteps_isPermutation (scheduleSteps_isPermutation (lcr_isPermutation _ _) _ _ _) _

/-! ### Commands keep the invariant -/

/-- The checks of a transform keep its output positions inside DMEM (43_transform.md rules R170,
R171). -/
theorem storeAddr_lt {final : Bool} {s : State} (h : transformCheck final s = none) {k : Nat}
    (hk : k < s.regs.count.toNat) : s.storeAddr final k < s.params.dmemSize := by
  cases final with
  | false =>
    obtain ⟨-, -, ⟨-, hout⟩, -, hslice⟩ := (transformCheck_false_eq_none s).1 h
    simp only [State.storeAddr, Bool.false_eq_true, if_false, outAddr, State.outBuffer,
      State.outOffset]
    omega
  | true =>
    obtain ⟨-, -, -, hout, -⟩ := (transformCheck_true_eq_none s).1 h
    simp only [State.storeAddr, if_true, outAddr, State.freshBuffer]
    omega

/-- A transform runs only in READY (60_exceptions.md rule R212). -/
theorem lstate_of_transformCheck {final : Bool} {s : State} (h : transformCheck final s = none) :
    s.lstate = .ready := by
  rw [transformCheck, Option.or_eq_none_iff] at h
  exact (checkLifecycle_eq_none s).1 h.1

/-- The loop of a transform that passed its checks lists only DMEM offsets. -/
theorem transformed_inside {final : Bool} {s : State} (h : transformCheck final s = none)
    (hi : Memory.inside s.params.dmemSize s.dmem) :
    Memory.inside s.params.dmemSize (transformed final s).dmem := by
  cases final <;> exact xorStream_inside _ _ hi fun _ hk => storeAddr_lt h hk

/-- An error writes ERR and RESULT 0 alone, so it keeps the invariant (R214). -/
theorem State.Inv.raiseError {s : State} (h : s.Inv) (e : ErrCode) : (s.raiseError e).Inv := by
  obtain ⟨htab, hmem, -⟩ := h
  exact ⟨htab, hmem, fun _ => rfl, fun _ => rfl⟩

/-- A construction makes permutations and enters READY. -/
theorem State.Inv.construct {s : State} (h : s.Inv) (n : Nonce) : (s.construct n).Inv := by
  obtain ⟨-, hmem, -⟩ := h
  refine ⟨⟨fun _ => ?_, fun hl => ?_⟩, ?_, fun _ => ?_, fun _ => ?_⟩
  · simp only [State.construct_gen1, State.construct_gen2]
    exact ⟨s.keyedGenerator_isPermutation _, s.keyedGenerator_isPermutation _⟩
  · exact absurd (s.construct_lstate n) hl
  · simpa [State.MemInv] using hmem
  · exact s.construct_result n
  · exact s.construct_result n

/-- A transform that succeeds steps permutations and stores inside DMEM, in READY with ERR NONE. -/
theorem State.Inv.transformed {s : State} (h : s.Inv) {final : Bool}
    (hc : transformCheck final s = none) (v : Word) :
    ((Machine.transformed final s).succeed v).Inv := by
  obtain ⟨⟨hready, -⟩, ⟨hwf, hin⟩, -⟩ := h
  have hl := lstate_of_transformCheck hc
  obtain ⟨h1, h2⟩ := hready hl
  have hwf' := transformed_wf hwf final
  have hin' := transformed_inside hc hin
  rw [transformed_eq]
  exact ⟨⟨fun _ => ⟨prgaSteps_isPermutation h1 _, prgaSteps_isPermutation h2 _⟩,
    fun hn => absurd hl hn⟩, ⟨hwf', hin'⟩, fun hn => absurd rfl hn, fun hn => absurd hl hn⟩

/-- DISPOSE zeroes the tables and cursors and leaves READY (44_lifecycle.md rule R196). -/
theorem State.Inv.disposed {s : State} (h : s.Inv) : (Machine.disposed s).Inv := by
  obtain ⟨-, hmem, -⟩ := h
  exact ⟨⟨nofun, fun _ => ⟨rfl, rfl⟩⟩, hmem, fun _ => rfl, fun _ => rfl⟩

/-- Every command keeps the invariant. -/
theorem exec_inv {i : Instr} {s t : State} (hs : s.Inv) (h : exec i s = .next t) : t.Inv := by
  rcases exec_cases h with ⟨e, rfl, -⟩ | ⟨-, -, rfl⟩ | ⟨final, -, hc, rfl⟩ | ⟨-, rfl⟩
  · exact hs.raiseError e
  · exact hs.construct _
  · exact hs.transformed hc _
  · exact hs.disposed

/-- A completion keeps the invariant, which does not speak of BUSY. -/
theorem completeCommand_inv {s t : State} (hs : s.Inv) (h : completeCommand s = .next t) :
    t.Inv := by
  rcases completeCommand_cases h with ⟨i, u, -, hu, rfl⟩ | ⟨why, -, rfl⟩
  · exact (exec_inv hs hu : u.Inv)
  · exact hs.raiseError _

/-! ### Accesses and resets keep the invariant -/

/-- A write of the host touches DMEM inside its bounds, or nothing the invariant speaks of. -/
theorem State.Inv.busWrite {s : State} (h : s.Inv) (w : Width) (off : Nat) (v : Word) :
    (s.busWrite w off v).Inv := by
  rcases s.busWrite_cases w off v with e | ⟨r, e⟩ | ⟨-, -, e⟩ | e | ⟨-, hfit, e⟩ <;> rw [e]
  · exact h
  · exact h
  · exact h
  · rw [State.keyWriteLanes_eq]
    exact h
  · obtain ⟨htab, ⟨hwf, hin⟩, hres⟩ := h
    have hmem := State.memWriteLanes_inv hwf hin _ v _ hfit
    rw [State.memWriteLanes_eq]
    exact ⟨htab, hmem, hres⟩

/-- A host access keeps the invariant. -/
theorem State.Inv.perform {s : State} (h : s.Inv) (a : Access) : (s.perform a).Inv := by
  rcases s.perform_cases a with e | ⟨v, e⟩ | ⟨w, addr, v, off, -, -, e⟩ <;> rw [e]
  · exact h
  · exact h
  · exact h.busWrite w off v

/-- The state a reset leaves meets the invariant. -/
theorem State.afterReset_inv (p : Params) (draw : List Byte) : (State.afterReset p draw).Inv :=
  ⟨⟨nofun, fun _ => ⟨rfl, rfl⟩⟩,
    ⟨Memory.nil_wf, fun _ hc => absurd hc List.not_mem_nil⟩, fun _ => rfl, fun _ => rfl⟩

/-- A reset reaches the invariant from any state: the inputs and replies it keeps are no part of
it. -/
theorem State.resetBlock_inv (s : State) (draw : List Byte) (ans : Bool) (held : List Access)
    (rest : List Input) : (s.resetBlock draw ans held rest).Inv := by
  rw [State.resetBlock_eq]
  exact State.afterReset_inv s.params draw

/-- Settles O54: each of the five moves of a step keeps the invariant. -/
theorem everyStepKeepsTheInvariant : Obligations.EveryStepKeepsTheInvariant := by
  intro s t hs h
  rcases step_cases h with ⟨-, rfl⟩ | ⟨rest, -, rfl⟩ | ⟨a, rest, -, rfl⟩ | ⟨rest, -, hc⟩ |
    ⟨draw, ans, held, rest, -, rfl⟩
  · exact hs
  · exact hs
  · exact State.Inv.perform (s := s.setInputs rest) hs a
  · exact completeCommand_inv (s := s.setInputs rest) hs hc
  · exact s.resetBlock_inv draw ans held rest

/-- Settles O53: the state after reset meets the invariant, at any parameters and any draw. -/
theorem invariantHoldsAfterReset : Obligations.InvariantHoldsAfterReset :=
  ⟨State.afterReset_inv, State.afterReset_inv Config.params Config.dmemInit⟩

end Sys2Proof.Machine
end

section
/-! PROOFS. The frames of commands and steps (10_state.md): what writes BUSY, the tables and the
cursors, and what no command changes. -/

namespace Sys2Proof.Machine

/-! ### The frame of an access -/

/-- An access changes neither table and neither cursor (R22, R24). -/
theorem State.perform_generators (s : State) (a : Access) :
    (s.perform a).gen1 = s.gen1 ∧ (s.perform a).gen2 = s.gen2 := by
  rcases s.perform_cases a with e | ⟨v, e⟩ | ⟨w, addr, v, off, -, -, e⟩ <;> rw [e]
  · exact ⟨rfl, rfl⟩
  · exact ⟨rfl, rfl⟩
  · rw [State.busWrite_keeps]
    exact ⟨rfl, rfl⟩

/-- The one access that writes BUSY is the 32-bit write to CMD, which accepts its word (R30, R34). -/
theorem State.perform_busy (s : State) (a : Access) :
    (s.perform a).busy = s.busy ∨
    ∃ v, a = .write .word (s.params.blockBase + 0x000) v ∧ s.perform a = s.acceptCommand v := by
  rcases s.perform_cases a with e | ⟨v, e⟩ | ⟨w, addr, v, off, ha, ho, e⟩
  · exact .inl (by rw [e])
  · exact .inl (by rw [e, State.answer_busy])
  · rcases s.busWrite_cases w off v with e' | ⟨r, e'⟩ | ⟨rfl, rfl, e'⟩ | e' | ⟨-, -, e'⟩ <;>
      rw [e'] at e
    · exact .inl (by rw [e])
    · exact .inl (by rw [e, State.setRegs_busy])
    · exact .inr ⟨v, by rw [ha, (busOffset_eq_some ho).1], e⟩
    · exact .inl (by rw [e, State.keyWriteLanes_eq])
    · exact .inl (by rw [e, State.memWriteLanes_eq])

/-! ### BUSY -/

/-- A step that performs an access. -/
theorem eq_perform_of_step {s t : State} (h : step s = .next t) {a : Access} {rest : List Input}
    (hm : s.nextMove = .perform a rest) : t = (s.setInputs rest).perform a := by
  rw [step, hm] at h
  exact (Host.Outcome.next.inj h).symm

/-- A completion leaves BUSY = 0 (R30). -/
theorem busy_of_complete {s t : State} (h : step s = .next t) {rest : List Input}
    (hm : s.nextMove = .complete rest) : t.busy = false := by
  rw [step, hm] at h
  exact completeCommand_busy h

/-- A reset leaves BUSY = 0 (R30). -/
theorem busy_of_reset {s t : State} (h : step s = .next t) {draw : List Byte} {ans : Bool}
    {held : List Access} {rest : List Input} (hm : s.nextMove = .reset draw ans held rest) :
    t.busy = false := by
  rw [step, hm] at h
  rw [← Host.Outcome.next.inj h, State.resetBlock_eq]
  rfl

/-- A step keeps BUSY, or accepts a command, or is a completion or a reset (R30). -/
theorem step_busy_cases {s t : State} (h : step s = .next t) :
    t.busy = s.busy ∨
    (∃ v rest, s.nextMove = .perform (.write .word (s.params.blockBase + 0x000) v) rest ∧
      t = (s.setInputs rest).acceptCommand v) ∨
    (∃ rest, s.nextMove = .complete rest) ∨
    ∃ draw ans held rest, s.nextMove = .reset draw ans held rest := by
  rcases step_cases h with ⟨-, rfl⟩ | ⟨rest, -, rfl⟩ | ⟨a, rest, hm, rfl⟩ | ⟨rest, hm, -⟩ |
    ⟨draw, ans, held, rest, hm, -⟩
  · exact .inl rfl
  · exact .inl rfl
  · rcases (s.setInputs rest).perform_busy a with hb | ⟨v, rfl, e⟩
    · exact .inl hb
    · exact .inr (.inl ⟨v, rest, hm, e⟩)
  · exact .inr (.inr (.inl ⟨rest, hm⟩))
  · exact .inr (.inr (.inr ⟨draw, ans, held, rest, hm⟩))

/-- Settles O13: of the four kinds of step (`step_busy_cases`), acceptance alone sets BUSY, and
completion and reset alone clear it. -/
theorem busyIsSetByAcceptanceAndClearedByCompletionOrReset :
    Obligations.BusyIsSetByAcceptanceAndClearedByCompletionOrReset := by
  intro s t h
  refine ⟨fun v rest _ hm => ?_, fun hs ht => ?_, fun hs ht => ?_,
    fun ⟨_, hm⟩ => busy_of_complete h hm, fun ⟨_, _, _, _, hm⟩ => busy_of_reset h hm⟩
  · rw [eq_perform_of_step h hm]
    have e : (s.setInputs rest).perform (.write .word (s.params.blockBase + 0x000) v) =
      (s.setInputs rest).acceptCommand v := State.perform_cmdWrite _ v
    rw [e]
    exact ⟨rfl, rfl⟩
  · rcases step_busy_cases h with hb | ⟨v, rest, hm, rfl⟩ | ⟨rest, hm⟩ | ⟨_, _, _, _, hm⟩
    · rw [hb, hs] at ht
      cases ht
    · exact ⟨v, rest, hm, rfl⟩
    · rw [busy_of_complete h hm] at ht
      cases ht
    · rw [busy_of_reset h hm] at ht
      cases ht
  · rcases step_busy_cases h with hb | ⟨v, rest, -, rfl⟩ | hm | hm
    · rw [hb, hs] at ht
      cases ht
    · cases ht
    · exact .inl hm
    · exact .inr hm

/-! ### Tables and cursors -/

/-- A command succeeds, or leaves tables and cursors as they were (60_exceptions.md rule R214). -/
theorem exec_err_none_or_generators {i : Instr} {s t : State} (h : exec i s = .next t) :
    t.err = .none ∨ (t.gen1 = s.gen1 ∧ t.gen2 = s.gen2) := by
  rcases exec_cases h with ⟨e, rfl, -⟩ | ⟨-, -, rfl⟩ | ⟨final, -, -, rfl⟩ | ⟨-, rfl⟩
  · exact .inr ⟨rfl, rfl⟩
  · exact .inl (s.construct_err _)
  · exact .inl rfl
  · exact .inl rfl

/-- Settles O16: only a completion and a reset write tables and cursors, and a completion does so
only when its command succeeds. -/
theorem tablesAndCursorsChangeOnlyByASuccessOrReset :
    Obligations.TablesAndCursorsChangeOnlyByASuccessOrReset := by
  intro s t h hne
  have changed : ¬ (t.gen1 = s.gen1 ∧ t.gen2 = s.gen2) := not_and_or.2 hne
  rcases step_cases h with ⟨-, rfl⟩ | ⟨rest, -, rfl⟩ | ⟨a, rest, -, rfl⟩ | ⟨rest, hm, hc⟩ |
    ⟨draw, ans, held, rest, hm, -⟩
  · exact absurd ⟨rfl, rfl⟩ changed
  · exact absurd ⟨rfl, rfl⟩ changed
  · exact absurd ((s.setInputs rest).perform_generators a) changed
  · rcases completeCommand_cases hc with ⟨i, u, hd, hu, rfl⟩ | ⟨why, -, rfl⟩
    · exact .inl ⟨rest, i, hm, hd, (exec_err_none_or_generators hu).resolve_right changed⟩
    · exact absurd ⟨rfl, rfl⟩ changed
  · exact .inr ⟨draw, ans, held, rest, hm⟩

/-! ### The frame of a command -/

/-- Settles O24: an error, a construction and DISPOSE write no register, input, reply or DMEM byte;
a transform writes generators and DMEM alone (`transformed_eq`) beside ERR and RESULT. -/
theorem commandsKeepRegistersKeyAndDmem : Obligations.CommandsKeepRegistersKeyAndDmem := by
  intro s t i h
  rcases exec_cases h with ⟨e, rfl, -⟩ | ⟨-, -, rfl⟩ | ⟨final, rfl, -, rfl⟩ | ⟨rfl, rfl⟩
  · exact ⟨rfl, rfl, rfl, rfl, rfl, rfl, rfl, fun _ => rfl, fun _ _ _ => rfl⟩
  · simp [State.memRead]
  · rw [transformed_eq]
    refine ⟨rfl, rfl, rfl, rfl, rfl, rfl, rfl, fun _ => rfl, fun hne hne' => ?_⟩
    cases final with
    | false => exact absurd rfl hne
    | true => exact absurd rfl hne'
  · exact ⟨rfl, rfl, rfl, rfl, rfl, rfl, rfl, fun hne => absurd rfl hne, fun _ _ _ => rfl⟩

end Sys2Proof.Machine
end

section
/-! PROOFS. The register map, reserved offsets and what the host can see (10_state.md). -/

namespace Sys2Proof.Machine

/-! ### The register map (R33) -/

/-- The block offset of each register, the column of R33's table that `regAt` inverts. -/
def Reg.offset : Reg → Nat
  | .cmd => 0x000
  | .status => 0x004
  | .result => 0x008
  | .keylen => 0x00C
  | .nonce => 0x010
  | .nonceLen => 0x014
  | .argf => 0x018
  | .inBase => 0x01C
  | .inLen => 0x020
  | .inOff => 0x024
  | .count => 0x028
  | .outBase => 0x02C
  | .outLen => 0x030
  | .outOff => 0x034

/-- `regAt` finds a register at its own offset and at no other. -/
theorem regAt_eq_some {off : Nat} {r : Reg} : regAt off = some r ↔ off = r.offset := by
  constructor
  · intro h
    unfold regAt at h
    split at h <;> cases h <;> rfl
  · rintro rfl
    cases r <;> rfl

/-- The offsets from 0x038 hold no register (R42). -/
theorem regAt_eq_none {off : Nat} (h : 0x038 ≤ off) : regAt off = none := by
  rw [Option.eq_none_iff_forall_ne_some]
  intro r hr
  rw [regAt_eq_some] at hr
  cases r <;> simp only [Reg.offset] at hr <;> omega

/-- A 32-bit read at a register's offset reads the register. -/
theorem State.busRead_offset (s : State) (r : Reg) : s.busRead .word r.offset = s.readReg r := by
  cases r <;> rfl

/-- A 32-bit write at a register's offset writes the register. -/
theorem State.busWrite_offset (s : State) (r : Reg) (v : Word) :
    s.busWrite .word r.offset v = s.writeReg r v := by
  cases r <;> rfl

/-- The read/write registers of R33: every one but CMD, STATUS and RESULT. -/
def Reg.hostWritten (r : Reg) : Bool := decide (r ≠ .cmd ∧ r ≠ .status ∧ r ≠ .result)

/-- A write to a read/write register changes the host-written registers alone. -/
theorem State.writeReg_eq {r : Reg} (h : r.hostWritten = true) (s : State) (v : Word) :
    s.writeReg r v = s.setRegs (s.writeReg r v).regs := by
  cases r
  case cmd | status | result => cases h
  all_goals rfl

/-- A write to a read/write register changes what no other register reads. -/
theorem State.readReg_writeReg_of_ne {r r' : Reg} (h : r.hostWritten = true) (hne : r' ≠ r)
    (s : State) (v : Word) : (s.writeReg r v).readReg r' = s.readReg r' := by
  cases r
  case cmd | status | result => cases h
  all_goals
    cases r'
    any_goals rfl
    exact absurd rfl hne

/-- Keeping the two low bits is masking them. -/
theorem setWidth_two_eq_and (v : Word) : (v.setWidth 2).setWidth 32 = v &&& 3 := by
  refine BitVec.eq_of_toNat_eq ?_
  have hmask : v.toNat &&& 3 = v.toNat % 4 := Nat.and_two_pow_sub_one_eq_mod v.toNat 2
  rw [BitVec.toNat_and, show (3 : Word).toNat = 3 from rfl, hmask, BitVec.toNat_setWidth,
    BitVec.toNat_setWidth]
  omega

/-- A read/write register reads back the value written, ARGF its two implemented bits (R39). -/
theorem State.readReg_writeReg_same {r : Reg} (h : r.hostWritten = true) (s : State) (v : Word) :
    (s.writeReg r v).readReg r = if r = .argf then v &&& 3 else v := by
  cases r
  case cmd | status | result => cases h
  case argf => exact setWidth_two_eq_and v
  all_goals rfl

/-- A check of the register at an offset, as a check of the offset's register. -/
theorem exists_offset_of_regAt_any {p : Reg → Bool} {off : Nat} (h : (regAt off).any p = true) :
    ∃ r, p r = true ∧ off = r.offset := by
  obtain ⟨r, hr, hp⟩ := (Option.any_eq_true _ _).1 h
  exact ⟨r, hp, regAt_eq_some.1 hr⟩

/-- Settles O44: at its offset each register is read and written as `readReg` and `writeReg` say,
and a write to a host-written register reaches that register alone. -/
theorem registersReadBackWhatWasWritten : Obligations.RegistersReadBackWhatWasWritten := by
  intro s v
  refine ⟨fun o ho => ?_, ?_, fun o ho => ?_, rfl, rfl, rfl, rfl, rfl,
    ⟨s.busWrite_offset .keylen v, s.busRead_offset .keylen⟩,
    ⟨s.busWrite_offset .nonce v, s.busRead_offset .nonce⟩,
    ⟨s.busWrite_offset .nonceLen v, s.busRead_offset .nonceLen⟩,
    ⟨?_, s.busRead_offset .argf⟩,
    ⟨s.busWrite_offset .inBase v, s.busRead_offset .inBase⟩,
    ⟨s.busWrite_offset .inLen v, s.busRead_offset .inLen⟩,
    ⟨s.busWrite_offset .inOff v, s.busRead_offset .inOff⟩,
    ⟨s.busWrite_offset .count v, s.busRead_offset .count⟩,
    ⟨s.busWrite_offset .outBase v, s.busRead_offset .outBase⟩,
    ⟨s.busWrite_offset .outLen v, s.busRead_offset .outLen⟩,
    ⟨s.busWrite_offset .outOff v, s.busRead_offset .outOff⟩⟩
  · have hreg : (regAt o).any (fun r => r.hostWritten && r ≠ .argf) = true := by
      revert o ho
      decide
    obtain ⟨r, hr, rfl⟩ := exists_offset_of_regAt_any hreg
    rw [Bool.and_eq_true, decide_eq_true_eq] at hr
    obtain ⟨hw, hargf⟩ := hr
    rw [State.busWrite_offset, State.busRead_offset, State.readReg_writeReg_same hw,
      if_neg hargf]
  · exact State.readReg_writeReg_same (r := .argf) rfl s v
  · have hreg : (regAt o).any Reg.hostWritten = true := by
      revert o ho
      decide
    obtain ⟨r, hw, rfl⟩ := exists_offset_of_regAt_any hreg
    refine ⟨?_, fun o' ho' hne => ?_⟩
    · rw [State.busWrite_offset]
      exact State.writeReg_eq hw s v
    · have hreg' : (regAt o').any (fun _ => true) = true := by
        clear hne
        revert o' ho'
        decide
      obtain ⟨r', -, rfl⟩ := exists_offset_of_regAt_any hreg'
      simp only [State.busWrite_offset, State.busRead_offset]
      exact State.readReg_writeReg_of_ne hw (ne_of_apply_ne Reg.offset hne) s v
  · rw [← BitVec.setWidth_eq_extractLsb' (by decide)]
    exact s.busWrite_offset .argf v

/-! ### Reserved offsets (R42, 20_memory.md rule R64) -/

/-- An offset of the reserved window reads 0 and ignores writes. -/
theorem State.bus_of_reservedWindow {s : State} {off : Nat}
    (h : windowOf s.params.dmemSize off = .reserved) (w : Width) (v : Word) :
    s.busRead w off = 0 ∧ s.busWrite w off v = s := by
  simp [State.busRead, State.busWrite, h]

/-- An offset of the register window that holds no register reads 0 and ignores writes. -/
theorem State.bus_of_noRegister {s : State} {off : Nat}
    (h : windowOf s.params.dmemSize off = .register) (hr : regAt off = none) (w : Width)
    (v : Word) :
    s.busRead w off = 0 ∧ s.busWrite w off v = s := by
  simp [State.busRead, State.busWrite, h, hr]

/-- The offsets between the key and the data window, and those past the data window, are
reserved. -/
theorem windowOf_eq_reserved {size off : Nat}
    (h : (0x200 ≤ off ∧ off ≤ 0xFFF) ∨ 0x1000 + size ≤ off) : windowOf size off = .reserved := by
  unfold windowOf
  rw [if_neg (by omega), if_neg (by omega)]
  split
  · rfl
  · rw [if_neg (by omega)]

/-- Settles O46: the first range lies in the register window past its last register, the other two
in the reserved window. -/
theorem reservedOffsetReadsZeroAndIgnoresWrites :
    Obligations.ReservedOffsetReadsZeroAndIgnoresWrites := by
  intro s w off v h
  rcases h with ⟨hlo, hhi⟩ | hres
  · exact State.bus_of_noRegister (if_pos (by omega)) (regAt_eq_none hlo) w v
  · exact State.bus_of_reservedWindow (windowOf_eq_reserved hres) w v

/-! ### What accesses reveal (60_exceptions.md rule R223) -/

/-- The block with other secrets: S1, S2, the cursors and KEY RAM. -/
def State.withSecrets (s : State) (g1 g2 : Generator) (ram : Table) : State :=
  { s with gen1 := g1, gen2 := g2, keyRam := ram }

section
variable (s : State) (g1 g2 : Generator) (ram : Table)

@[simp] theorem State.withSecrets_params : (s.withSecrets g1 g2 ram).params = s.params := rfl

/-- A read does not depend on the secrets. -/
theorem State.busRead_withSecrets (w : Width) (off : Nat) :
    (s.withSecrets g1 g2 ram).busRead w off = s.busRead w off :=
  State.busRead_congr (s := s) (u := s.withSecrets g1 g2 ram) rfl rfl rfl rfl rfl rfl (fun _ => rfl)
    w off

/-- A register write leaves the secrets and does not depend on them. -/
theorem State.writeReg_withSecrets (r : Reg) (v : Word) :
    (s.withSecrets g1 g2 ram).writeReg r v = (s.writeReg r v).withSecrets g1 g2 ram := by
  cases r <;> rfl

/-- DMEM lanes are written alike whatever the secrets. -/
theorem State.memWriteLanes_withSecrets (a : Nat) (v : Word) (k : Nat) :
    (s.withSecrets g1 g2 ram).memWriteLanes a v k =
      (s.memWriteLanes a v k).withSecrets g1 g2 ram := by
  induction k with
  | zero => rfl
  | succ k ih =>
    rw [State.memWriteLanes, ih]
    rfl

/-- KEY RAM lanes are written into the block's own KEY RAM, and nothing else depends on it. -/
theorem State.keyWriteLanes_withSecrets (a : Nat) (v : Word) (k : Nat) :
    (s.withSecrets g1 g2 ram).keyWriteLanes a v k =
      (s.keyWriteLanes a v k).withSecrets g1 g2
        ((s.withSecrets g1 g2 ram).keyWriteLanes a v k).keyRam := by
  rw [State.keyWriteLanes_eq, s.keyWriteLanes_eq]
  rfl

/-- A write reaches, of the secrets, at most KEY RAM, and depends on none of them. -/
theorem State.busWrite_withSecrets (w : Width) (off : Nat) (v : Word) :
    (s.withSecrets g1 g2 ram).busWrite w off v =
      (s.busWrite w off v).withSecrets g1 g2
        ((s.withSecrets g1 g2 ram).busWrite w off v).keyRam := by
  unfold State.busWrite
  rw [State.withSecrets_params]
  split
  · rfl
  · cases windowOf s.params.dmemSize off with
    | register =>
      dsimp only
      split
      · cases regAt off with
        | none => rfl
        | some r =>
          simp only [Option.map_some, Option.getD_some, State.writeReg_withSecrets]
          rfl
      · rfl
    | key => exact s.keyWriteLanes_withSecrets g1 g2 ram _ _ _
    | data =>
      simp only [State.memWriteLanes_withSecrets]
      rfl
    | reserved => rfl

/-- An access depends on no secret and changes, of the secrets, at most KEY RAM. -/
theorem State.perform_withSecrets (a : Access) :
    (s.withSecrets g1 g2 ram).perform a =
      (s.perform a).withSecrets g1 g2 ((s.withSecrets g1 g2 ram).perform a).keyRam := by
  cases a with
  | read w addr =>
    unfold State.perform
    dsimp only
    rw [State.withSecrets_params]
    split
    · rw [State.busRead_withSecrets]
      rfl
    · rfl
  | write w addr v =>
    unfold State.perform
    dsimp only
    rw [State.withSecrets_params]
    split
    · next off _ => exact s.busWrite_withSecrets g1 g2 ram w off v
    · rfl

end

/-- Settles O50: the second block is the first with other secrets, and the access commutes with
that change (`State.perform_withSecrets`). -/
theorem hostAccessesRevealNoSecretState : Obligations.HostAccessesRevealNoSecretState := by
  intro s u a hu
  have h : u.perform a = (s.perform a).withSecrets u.gen1 u.gen2 (u.perform a).keyRam := by
    have hu' : u = s.withSecrets u.gen1 u.gen2 u.keyRam := hu
    have e := s.perform_withSecrets u.gen1 u.gen2 u.keyRam a
    rwa [← hu'] at e
  exact ⟨by rw [h]; rfl, h⟩

/-! ### STATUS (R35) -/

/-- The fields of a word packed as STATUS is: four bits, a zero, two bits and one bit. -/
theorem status_fields (e : BitVec 4) (l : BitVec 2) (b : Bool) :
    let w : Word := (e ++ (0 : BitVec 1) ++ l ++ BitVec.ofBool b).setWidth 32
    w[0] = b ∧ w.extractLsb' 1 2 = l ∧ w[3] = false ∧ w.extractLsb' 4 4 = e ∧
      w.extractLsb' 8 24 = 0 := by
  refine ⟨?_, ?_, ?_, ?_, ?_⟩
  · simp only [BitVec.getElem_setWidth, BitVec.getLsbD_append]
    simp
  · rw [BitVec.extractLsb'_setWidth_of_le (by decide),
      BitVec.extractLsb'_append_eq_of_le (by decide), BitVec.extractLsb'_append_eq_right]
  · simp only [BitVec.getElem_setWidth, BitVec.getLsbD_append]
    simp
  · rw [BitVec.extractLsb'_setWidth_of_le (by decide),
      BitVec.extractLsb'_append_eq_of_le (by decide),
      BitVec.extractLsb'_append_eq_of_le (by decide),
      BitVec.extractLsb'_append_eq_of_le (by decide), BitVec.extractLsb'_eq_self]
  · ext i hi
    simp

/-- Settles O43: the fields of STATUS are the codes of ERR and LSTATE, and BUSY. -/
theorem statusWordHasItsLayout : Obligations.StatusWordHasItsLayout := by
  intro s
  obtain ⟨hbusy, hlstate, hzero, herr, hhigh⟩ := status_fields s.err.code s.lstate.code s.busy
  refine ⟨hbusy, hlstate.trans ?_, hzero, herr.trans ?_, hhigh⟩
  · cases s.lstate <;> rfl
  · cases s.err <;> rfl

/-! ### Reset (R43) -/

/-- Settles O51: tables and KEY RAM are the zero table, DMEM lists no byte over the draw, and every
other element is written out in `State.afterReset`. -/
theorem resetGivesTheListedValues : Obligations.ResetGivesTheListedValues := by
  refine ⟨fun p init => ⟨fun i => ?_, rfl, rfl, rfl, rfl, rfl, fun _ => rfl, rfl, rfl, rfl, rfl,
    rfl, rfl, rfl, rfl, rfl, rfl, rfl, rfl, rfl, rfl, rfl⟩, rfl⟩
  have h := tableGet_zeroTable i
  exact ⟨h, h, h⟩

end Sys2Proof.Machine
end

section
/-! PROOFS. The host interface (20_memory.md): the windows of the host space, the idempotence of
writes, and the busy interlock. -/

namespace Sys2Proof.Machine

/-! ### Sizes and alignment (R65, R66) -/

/-- The sizes of the three widths. -/
theorem Width.eq_bytes_of_mem {w : Width} {n : Nat}
    (h : (w, n) ∈ [(Width.byte, 1), (Width.half, 2), (Width.word, 4)]) : n = w.bytes := by
  simp only [List.mem_cons, Prod.mk.injEq, List.not_mem_nil, or_false] at h
  rcases h with ⟨rfl, rfl⟩ | ⟨rfl, rfl⟩ | ⟨rfl, rfl⟩ <;> rfl

/-- An access moves at most a word, in a size that divides it. -/
theorem Width.bytes_dvd_four (w : Width) : w.bytes ∣ 4 := by
  cases w <;> decide

/-- A window that begins at a multiple of 4 has the alignment of its offsets. -/
theorem aligned_window_iff {base : Nat} (hb : 4 ∣ base) (w : Width) (a : Nat) :
    aligned w (base + a) = true ↔ a % w.bytes = 0 := by
  rw [aligned, decide_eq_true_eq, ← Nat.dvd_iff_mod_eq_zero, ← Nat.dvd_iff_mod_eq_zero,
    Nat.dvd_add_right (w.bytes_dvd_four.trans hb)]

/-- An aligned access in the key window stays in it (R62). -/
theorem aligned_fits_key {w : Width} {i : Nat} (hal : i % w.bytes = 0) (hi : i < 256) :
    i + w.bytes ≤ 256 := by
  cases w <;> simp only [Width.bytes] at * <;> omega

/-! ### Accesses that do nothing (R61, R66) -/

/-- A misaligned access does nothing. -/
theorem State.bus_of_misaligned {w : Width} {off : Nat} (h : aligned w off = false) (s : State)
    (v : Word) : s.busRead w off = 0 ∧ s.busWrite w off v = s :=
  ⟨if_pos h, if_pos h⟩

/-- An access in the register window that is not 32 bits wide does nothing. -/
theorem State.bus_of_narrowRegister {w : Width} {off : Nat} (h : off < 0x100) (hw : w ≠ .word)
    (s : State) (v : Word) : s.busRead w off = 0 ∧ s.busWrite w off v = s := by
  have hwin : windowOf s.params.dmemSize off = .register := if_pos h
  simp [State.busRead, State.busWrite, hwin, hw]

/-- Settles O45: each of the two kinds of access does nothing. -/
theorem misalignedOrNarrowAccessDoesNothing :
    Obligations.MisalignedOrNarrowAccessDoesNothing := by
  intro s w n off v hn h
  rcases h with hmis | ⟨hreg, hnarrow⟩
  · rw [Width.eq_bytes_of_mem hn] at hmis
    exact State.bus_of_misaligned (decide_eq_false hmis) s v
  · refine State.bus_of_narrowRegister hreg ?_ s v
    rcases hnarrow with rfl | rfl <;> decide

/-! ### The key window (R62) -/

/-- The offsets of the key window. -/
theorem windowOf_key (size : Nat) {i : Nat} (hi : i < 256) : windowOf size (0x100 + i) = .key := by
  rw [windowOf, if_neg (by omega), if_pos (by omega)]

/-- Every read in the key window returns 0. -/
theorem State.busRead_key (s : State) (w : Width) {i : Nat} (hi : i < 256) :
    s.busRead w (0x100 + i) = 0 := by
  rw [State.busRead, windowOf_key _ hi, ite_self]

/-- An aligned write in the key window writes its lanes to KEY RAM. -/
theorem State.busWrite_key (s : State) {w : Width} {i : Nat} (hi : i < 256)
    (hal : i % w.bytes = 0) (v : Word) :
    s.busWrite w (0x100 + i) v = s.keyWriteLanes i v w.bytes := by
  rw [State.busWrite, (aligned_window_iff (by decide) w i).2 hal, windowOf_key _ hi,
    if_neg (by decide), Nat.add_sub_cancel_left]

/-- Settles O47: a write is its KEY RAM lanes, which stay inside the 256 bytes, so each lane keeps
its own byte. -/
theorem keyWindowIsWriteOnly : Obligations.KeyWindowIsWriteOnly := by
  intro s w n i v hn hi
  obtain rfl := Width.eq_bytes_of_mem hn
  refine ⟨s.busRead_key w hi, fun hal => ?_⟩
  rw [s.busWrite_key hi hal]
  exact ⟨s.keyWriteLanes_eq i v w.bytes, s.keyWriteLanes_get i v (aligned_fits_key hal hi)⟩

/-! ### The data window (R63, R65) -/

/-- The offsets of the data window. -/
theorem windowOf_data {size a : Nat} (ha : a < size) : windowOf size (0x1000 + a) = .data := by
  rw [windowOf, if_neg (by omega), if_neg (by omega), if_neg (by omega), if_pos (by omega)]

section
variable {s : State} {w : Width} {a : Nat} (ha : a < s.params.dmemSize) (hal : a % w.bytes = 0)
include ha hal

/-- An aligned read in the data window returns the word of its DMEM bytes. -/
theorem State.busRead_data : s.busRead w (0x1000 + a) = wordOfLanes (s.memBytes a w.bytes) := by
  rw [State.busRead, (aligned_window_iff (by decide) w a).2 hal, windowOf_data ha,
    if_neg (by decide), Nat.add_sub_cancel_left]

/-- An aligned write in the data window writes its lanes to DMEM. -/
theorem State.busWrite_data (v : Word) :
    s.busWrite w (0x1000 + a) v = s.memWriteLanes a v w.bytes := by
  rw [State.busWrite, (aligned_window_iff (by decide) w a).2 hal, windowOf_data ha,
    if_neg (by decide), Nat.add_sub_cancel_left]

/-- Lane `k` of an aligned read in the data window. -/
theorem State.busRead_data_lane {k : Nat} (hk : k < w.bytes) :
    (s.busRead w (0x1000 + a)).extractLsb' (8 * k) 8 = s.memRead (a + k) := by
  have hk4 : k < 4 := hk.trans_le (Nat.le_of_dvd (by decide) w.bytes_dvd_four)
  rw [State.busRead_data ha hal, extractLsb'_wordOfLanes _ hk4, State.memBytes_getD, if_pos hk]

end

/-- Settles O48: a read is the word of its bytes, a write is its DMEM lanes. -/
theorem dataWindowIsLittleEndian : Obligations.DataWindowIsLittleEndian := by
  intro s w n a v hwf hn ha hal
  obtain rfl := Width.eq_bytes_of_mem hn
  refine ⟨fun k hk => State.busRead_data_lane ha hal hk, ?_⟩
  rw [State.busWrite_data ha hal]
  exact ⟨s.memWriteLanes_eq a v w.bytes, (State.memWriteLanes_read hwf a v w.bytes).2⟩

/-! ### Writes are idempotent (R68) -/

/-- Writing the byte an entry already holds changes nothing. -/
theorem tableSet_self (t : Table) (i : Byte) : tableSet t i (tableGet t i) = t :=
  table_ext fun j => by
    rw [tableGet_tableSet]
    split
    · next h => rw [h]
    · rfl

/-- Writing the byte a DMEM offset already holds changes nothing: the canonical form has one list
for these bytes. -/
theorem State.memWrite_self {s : State} (h : Memory.wf s.dmemInit s.dmem) (a : Nat) :
    s.memWrite a (s.memRead a) = s := by
  have hdmem : Memory.write s.dmemInit s.dmem a (s.memRead a) = s.dmem := by
    refine Memory.ext_of_read (Memory.write_wf h) h fun x => ?_
    rw [Memory.read_write h.1]
    split
    · next hx => rw [hx]; rfl
    · rfl
  rw [State.memWrite, hdmem]

/-- KEY RAM lanes that are already there change nothing. -/
theorem State.keyWriteLanes_of_held {s : State} {a k : Nat} {v : Word}
    (h : ∀ i < k, tableGet s.keyRam (BitVec.ofNat 8 (a + i)) = laneByte v i) :
    s.keyWriteLanes a v k = s := by
  induction k with
  | zero => rfl
  | succ k ih =>
    rw [State.keyWriteLanes, ih fun i hi => h i (by omega), ← h k (by omega), State.keyWrite,
      tableSet_self]

/-- DMEM lanes that are already there change nothing. -/
theorem State.memWriteLanes_of_held {s : State} (hwf : Memory.wf s.dmemInit s.dmem) {a k : Nat}
    {v : Word} (h : ∀ i < k, s.memRead (a + i) = laneByte v i) : s.memWriteLanes a v k = s := by
  induction k with
  | zero => rfl
  | succ k ih =>
    rw [State.memWriteLanes, ih fun i hi => h i (by omega), ← h k (by omega),
      State.memWrite_self hwf]

/-- Writing KEY RAM lanes twice is writing them once. -/
theorem State.keyWriteLanes_idem (s : State) {a k : Nat} (hk : a + k ≤ 256) (v : Word) :
    (s.keyWriteLanes a v k).keyWriteLanes a v k = s.keyWriteLanes a v k := by
  refine State.keyWriteLanes_of_held fun i hi => ?_
  have hidx : (BitVec.ofNat 8 (a + i)).toNat = a + i := by
    rw [BitVec.toNat_ofNat]
    omega
  rw [State.keyWriteLanes_get s a v hk, hidx, if_pos (by omega), Nat.add_sub_cancel_left]

/-- Writing DMEM lanes twice is writing them once. -/
theorem State.memWriteLanes_idem {s : State} (hwf : Memory.wf s.dmemInit s.dmem) (a : Nat)
    (v : Word) (k : Nat) :
    (s.memWriteLanes a v k).memWriteLanes a v k = s.memWriteLanes a v k := by
  obtain ⟨hwf', hread⟩ := State.memWriteLanes_read hwf a v k
  have hinit : (s.memWriteLanes a v k).dmemInit = s.dmemInit := by rw [State.memWriteLanes_eq]
  refine State.memWriteLanes_of_held (hinit ▸ hwf') fun i hi => ?_
  rw [hread, if_pos (by omega), Nat.add_sub_cancel_left]

/-- Writing a register other than CMD twice is writing it once. -/
theorem State.writeReg_idem {r : Reg} (h : r ≠ .cmd) (s : State) (v : Word) :
    (s.writeReg r v).writeReg r v = s.writeReg r v := by
  cases r
  case cmd => exact absurd rfl h
  all_goals rfl

/-- No write changes the parameters. -/
@[simp] theorem State.busWrite_params (s : State) (w : Width) (off : Nat) (v : Word) :
    (s.busWrite w off v).params = s.params := by
  rw [State.busWrite_keeps]

/-- Where a block offset lies: in the register, key or data window, or in no window that reacts
(R61 to R64). -/
theorem offset_cases (size off : Nat) :
    off < 0x100 ∨ (∃ i < 256, off = 0x100 + i) ∨ (∃ a < size, off = 0x1000 + a) ∨
      ((0x200 ≤ off ∧ off ≤ 0xFFF) ∨ 0x1000 + size ≤ off) := by
  rcases Nat.lt_or_ge off 0x100 with h | h
  · exact .inl h
  rcases Nat.lt_or_ge off 0x200 with h' | h'
  · exact .inr (.inl ⟨off - 0x100, by omega, by omega⟩)
  by_cases hdata : 0x1000 ≤ off ∧ off < 0x1000 + size
  · exact .inr (.inr (.inl ⟨off - 0x1000, by omega, by omega⟩))
  · exact .inr (.inr (.inr (by omega)))

/-- A 32-bit write in the register window, other than to CMD, is idempotent. -/
theorem State.busWrite_register_idem {off : Nat} (hoff : off < 0x100) (hcmd : off ≠ 0) (s : State)
    (v : Word) :
    (s.busWrite .word off v).busWrite .word off v = s.busWrite .word off v := by
  cases hr : regAt off with
  | none =>
    have hnone := (State.bus_of_noRegister (s := s) (if_pos hoff) hr .word v).2
    rw [hnone, hnone]
  | some r =>
    obtain rfl := regAt_eq_some.1 hr
    have hne : r ≠ .cmd := ne_of_apply_ne Reg.offset hcmd
    rw [State.busWrite_offset, State.busWrite_offset, State.writeReg_idem hne]

/-- A write at a block offset is idempotent, but for a 32-bit write to CMD. -/
theorem State.busWrite_idem {s : State} (hwf : Memory.wf s.dmemInit s.dmem) {w : Width} {off : Nat}
    (hcmd : ¬ (w = .word ∧ off = 0)) (v : Word) :
    (s.busWrite w off v).busWrite w off v = s.busWrite w off v := by
  have nothing : s.busWrite w off v = s →
      (s.busWrite w off v).busWrite w off v = s.busWrite w off v := fun h => by rw [h, h]
  cases hal : aligned w off with
  | false => exact nothing (State.bus_of_misaligned hal s v).2
  | true =>
    rcases offset_cases s.params.dmemSize off with hoff | ⟨i, hi, rfl⟩ | ⟨a, ha, rfl⟩ | hres
    · by_cases hw : w = .word
      · subst hw
        exact s.busWrite_register_idem hoff (fun h0 => hcmd ⟨rfl, h0⟩) v
      · exact nothing (State.bus_of_narrowRegister hoff hw s v).2
    · have hal' := (aligned_window_iff (by decide) w i).1 hal
      rw [State.busWrite_key _ hi hal', State.busWrite_key _ hi hal']
      exact s.keyWriteLanes_idem (aligned_fits_key hal' hi) v
    · have hal' := (aligned_window_iff (by decide) w a).1 hal
      rw [State.busWrite_data (by rwa [State.busWrite_params]) hal', State.busWrite_data ha hal']
      exact State.memWriteLanes_idem hwf a v w.bytes
    · exact nothing (State.bus_of_reservedWindow (windowOf_eq_reserved hres) w v).2

/-- A read changes the replies alone. -/
theorem State.perform_read_eq (s : State) (w : Width) (addr : Nat) :
    s.perform (.read w addr) = { s with replies := (s.perform (.read w addr)).replies } := by
  rcases s.perform_cases (.read w addr) with h | ⟨v, h⟩ | ⟨_, _, _, _, ha, -, -⟩
  · rw [h]
  · rw [h]
    rfl
  · cases ha

/-- A host write is idempotent, but for a 32-bit one to CMD: at an address of the block by its
offset, and elsewhere because it does nothing. -/
theorem State.perform_write_idem {s : State} (hwf : Memory.wf s.dmemInit s.dmem) {w : Width}
    {addr : Nat} (hcmd : ¬ (w = .word ∧ addr = s.params.blockBase)) (v : Word) :
    (s.perform (.write w addr v)).perform (.write w addr v) = s.perform (.write w addr v) := by
  cases ho : busOffset s.params.blockBase addr with
  | none => simp [State.perform, ho]
  | some off =>
    have hoff : ¬ (w = .word ∧ off = 0) := fun ⟨hw, h0⟩ =>
      hcmd ⟨hw, by rw [(busOffset_eq_some ho).1, h0, Nat.add_zero]⟩
    simp only [State.perform, ho, State.busWrite_params]
    exact State.busWrite_idem hwf hoff v

/-- Settles O49: a read only answers, and a write is idempotent in each window. -/
theorem readsHaveNoEffectAndWritesAreIdempotent :
    Obligations.ReadsHaveNoEffectAndWritesAreIdempotent := fun s w addr v =>
  ⟨by rw [State.perform_read_eq], fun hwf hcmd => State.perform_write_idem hwf hcmd v⟩

/-! ### Accesses while BUSY = 0 (R73, R74) -/

/-- An idle block performs the access at the front of its inputs. -/
theorem step_idle_access {s : State} (hb : s.busy = false) {a : Access} {rest : List Input}
    (hin : s.inputs = .access a :: rest) : step s = .next ((s.setInputs rest).perform a) := by
  have hmove : s.nextMove = .perform a rest := by
    rw [State.nextMove, hb, hin]
    rfl
  rw [step, hmove, takeMove]

/-- A read at a block offset answers what the offset reads as. -/
theorem State.perform_read_offset (s : State) (w : Width) {off : Nat} (h : off < 2 ^ 32) :
    s.perform (.read w (s.params.blockBase + off)) = s.answer (s.busRead w off) := by
  simp only [State.perform, busOffset_add h]

/-- A write at a block offset does what a write of the offset does. -/
theorem State.perform_write_offset (s : State) (w : Width) {off : Nat} (h : off < 2 ^ 32)
    (v : Word) : s.perform (.write w (s.params.blockBase + off) v) = s.busWrite w off v := by
  simp only [State.perform, busOffset_add h]

/-- Settles O8: the step performs the access, and the inputs still to come do not show in what it
reads. -/
theorem idleAccessIsPerformedInOneStep : Obligations.IdleAccessIsPerformedInOneStep := by
  intro s w off v rest hb hoff
  refine ⟨fun hin => ?_, fun hin => ?_⟩
  · rw [step_idle_access hb hin, ← s.setInputs_params rest, State.perform_read_offset _ w hoff,
      State.busRead_setInputs]
    rfl
  · rw [step_idle_access hb hin, ← s.setInputs_params rest, State.perform_write_offset _ w hoff]

/-! ### The busy interlock (R70, R71, R246) -/

/-- A busy block performs a STATUS read at the front of its inputs, which only answers. -/
theorem step_busy_statusRead {s : State} (hb : s.busy = true) {rest : List Input}
    (hin : s.inputs = .access (.read .word (s.params.blockBase + 0x004)) :: rest) :
    step s = .next ((s.setInputs rest).answer s.statusWord) := by
  have hmove : s.nextMove = .perform (.read .word (s.params.blockBase + 0x004)) rest := by
    rw [State.nextMove, if_pos hb, hin, busyMove, if_pos (isStatusRead_iff.2 rfl)]
  rw [step, hmove, takeMove, ← s.setInputs_params rest, State.perform_statusRead]
  rfl

/-- Settles O10: a busy step that is neither completion nor reset is a STATUS read
(`nextMove_busy`). -/
theorem nothingChangesWhileACommandRuns : Obligations.NothingChangesWhileACommandRuns := by
  intro s t hb hstep hcomplete hreset
  rcases nextMove_busy hb with ⟨rest, hin, -⟩ | ⟨rest, hm, -⟩ | ⟨draw, ans, held, rest, hm, -⟩
  · rw [step_busy_statusRead hb hin] at hstep
    rw [← Host.Outcome.next.inj hstep]
    rfl
  · exact absurd hm (hcomplete rest)
  · exact absurd hm (hreset draw ans held rest)

/-- Past the held accesses stands the ENGINE's turn, or nothing: the command completes, and the held
accesses stay in front, in order. -/
theorem heldMove_of_engine (held : List Access) {rest after : List Input}
    (h : rest = .engine :: after ∨ (rest = [] ∧ after = [])) :
    heldMove held rest = .complete (held.map .access ++ after) := by
  rcases h with rfl | ⟨rfl, rfl⟩
  · rfl
  · rw [List.append_nil]
    rfl

/-- A busy block holds any other access at the front of its inputs and the accesses behind it, and
completes its command. -/
theorem step_busy_held {s : State} (hb : s.busy = true) {a : Access}
    (ha : a ≠ .read .word (s.params.blockBase + 0x004)) {held : List Access}
    {rest after : List Input} (hin : s.inputs = .access a :: (held.map .access ++ rest))
    (h : rest = .engine :: after ∨ (rest = [] ∧ after = [])) :
    step s = completeCommand (s.setInputs (.access a :: (held.map .access ++ after))) := by
  have hmove : s.nextMove = .complete (.access a :: (held.map .access ++ after)) := by
    rw [State.nextMove, if_pos hb, hin, busyMove, if_neg (mt isStatusRead_iff.1 ha), heldMove_map,
      heldMove_of_engine _ h]
    rfl
  rw [step, hmove, takeMove]

/-- Settles O7: a STATUS read is performed at once; any other access is held over the completion,
which keeps the inputs and clears BUSY, and is then the next step of an idle block. -/
theorem busyHoldsEveryAccessButAStatusRead : Obligations.BusyHoldsEveryAccessButAStatusRead := by
  refine ⟨fun s rest hb hin => ?_, fun s a held rest after hb ha hin hrest => ?_⟩
  · obtain ⟨hbusy, hlstate, -, herr, -⟩ := status_fields s.err.code s.lstate.code s.busy
    exact ⟨step_busy_statusRead hb hin, hbusy.trans hb, hlstate, herr⟩
  · obtain ⟨t, ht⟩ :=
      completeCommand_next (s.setInputs (.access a :: (held.map .access ++ after)))
    have hidle := completeCommand_busy ht
    exact ⟨t, (step_busy_held hb ha hin hrest).trans ht, ht, hidle,
      step_idle_access hidle (completeCommand_inputs ht)⟩

end Sys2Proof.Machine
end

section
/-! PROOFS. The encoding of commands (30_encoding.md): decoding is exact match with the encoded
words, and what an illegal word completes with. -/

namespace Sys2Proof.Machine

/-! ### Exact match (R91, R95) -/

/-- A word has these fields exactly when it is their word (R90). -/
theorem fieldsOf_eq_iff {w : Word} {c : Cmd32} : fieldsOf w = c ↔ w = wordOf c :=
  ⟨fun h => h ▸ (wordOf_fieldsOf w).symm, fun h => h ▸ fieldsOf_wordOf c⟩

/-- A word decodes to a command exactly when it is that command's word. -/
theorem decode_eq_command_iff_eq_encode {w : Word} {i : Instr} :
    decode w = .command i ↔ w = encode i :=
  decode_eq_command.trans fieldsOf_eq_iff

/-- A word is ILLEGAL exactly when it is no command's word. -/
theorem decode_illegal_iff_ne_encode {w : Word} :
    (∃ why, decode w = .illegal why) ↔ ∀ i, w ≠ encode i :=
  decode_illegal_iff.trans (forall_congr' fun _ => not_congr fieldsOf_eq_iff)

/-- The word of a command decodes to it. -/
@[simp] theorem decode_encode (i : Instr) : decode (encode i) = .command i :=
  decode_eq_command_iff_eq_encode.2 rfl

/-- Every command's OPCODE is one that R91 assigns. -/
theorem opcodeOf_range (i : Instr) : 1 ≤ (opcodeOf i).toNat ∧ (opcodeOf i).toNat ≤ 5 := by
  cases i <;> decide

/-- Settles O2: the five words of R91 are the words `encode` gives. -/
theorem everyWordDecodesByExactMatch : Obligations.EveryWordDecodesByExactMatch := by
  intro w
  have hcommand (i : Instr) : decode w = .command i ↔ w = encode i :=
    decode_eq_command_iff_eq_encode
  refine ⟨hcommand .init, hcommand .initSeed, hcommand .transform, hcommand .transformFinal,
    hcommand .dispose, decode_illegal_iff_ne_encode.trans ⟨fun h => ?_, fun h i => ?_⟩⟩
  · exact ⟨h .init, h .initSeed, h .transform, h .transformFinal, h .dispose⟩
  · obtain ⟨hinit, hinitSeed, htransform, htransformFinal, hdispose⟩ := h
    cases i
    case init => exact hinit
    case initSeed => exact hinitSeed
    case transform => exact htransform
    case transformFinal => exact htransformFinal
    case dispose => exact hdispose

/-- Settles O1: five of the words are encoded commands, and the others are evaluated. -/
theorem writtenCommandWordsDecode : Obligations.WrittenCommandWordsDecode :=
  ⟨decode_encode .init, decode_encode .initSeed, decode_encode .transform,
    decode_encode .transformFinal, decode_encode .dispose, rfl, rfl, rfl, rfl, rfl, rfl⟩

/-- Settles O3: the fields of an encoded command are its OPCODE, in the assigned range, and a zero
MBZ. -/
theorem decodingInvertsEncoding : Obligations.DecodingInvertsEncoding := by
  intro i _
  refine ⟨decode_encode i, ?_⟩
  have hfields : fieldsOf (encode i) = ⟨opcodeOf i, 0⟩ := fieldsOf_wordOf _
  simp [hfields, Cmd32.wellFormed, Cmd32.mbzIsZero, Cmd32.opcodeIsAssigned, opcodeOf_range i]

/-! ### Illegal words (R93, R94) -/

/-- A word with MBZ not zero, or with a reserved OPCODE, is ILLEGAL. -/
theorem decode_illegal_of_fields {w : Word}
    (h : (fieldsOf w).mbz ≠ 0 ∨ (fieldsOf w).opcode = 0 ∨ 6 ≤ (fieldsOf w).opcode.toNat) :
    ∃ why, decode w = .illegal why := by
  refine decode_illegal_iff.2 fun i hi => ?_
  obtain ⟨hlow, hhigh⟩ := opcodeOf_range i
  rw [hi] at h
  rcases h with hmbz | hzero | hreserved
  · exact hmbz rfl
  · have : (opcodeOf i).toNat = 0 := congrArg BitVec.toNat hzero
    omega
  · exact absurd (hreserved.trans hhigh) (by decide)

/-- The completion of an ILLEGAL word raises ILLEGAL_COMMAND and clears BUSY (R245). -/
theorem completeCommand_of_illegal {s : State} {why : IllegalWord}
    (h : decode s.cmdLatch = .illegal why) :
    completeCommand s = .next (s.raiseError .illegalCommand).clearBusy := by
  simp [completeCommand, runWord, h]

/-- Settles O4: the two fields are bits 31:8 and 7:0 of CMDLATCH. -/
theorem illegalWordCompletesWithIllegalCommand :
    Obligations.IllegalWordCompletesWithIllegalCommand := by
  intro s h
  have hfields : (fieldsOf s.cmdLatch).mbz ≠ 0 ∨ (fieldsOf s.cmdLatch).opcode = 0 ∨
      6 ≤ (fieldsOf s.cmdLatch).opcode.toNat := h.imp_right And.right
  obtain ⟨why, hwhy⟩ := decode_illegal_of_fields hfields
  exact completeCommand_of_illegal hwhy

end Sys2Proof.Machine
end

section
/-! PROOFS. The initializer (40_initializer.md): the nonce bytes and the second nonce, the entries of
the LCR and their permutation, and what a nonce equal to its second nonce gives. -/

namespace Sys2Proof.Machine

/-! ### The second nonce (R112) -/

/-- A nonce byte is its byte lane of NONCE (10_state.md rule R38). -/
theorem nonceOfWord_getElem (w : Word) {i : Nat} (hi : i < 4) : (nonceOfWord w)[i] = laneByte w i := by
  match i, hi with
  | 0, _ | 1, _ | 2, _ | 3, _ => rfl

/-- Each byte of the second nonce is the next byte of the nonce, cyclically, plus 128. -/
theorem deriveNonce2_getElem (n : Nonce) {i : Nat} (hi : i < 4) :
    (deriveNonce2 n)[i] = n[(i + 1) % 4]'(Nat.mod_lt _ (Nat.zero_lt_succ 3)) + 128 := by
  match i, hi with
  | 0, _ | 1, _ | 2, _ | 3, _ => rfl

/-- Adding 128 to a byte flips its top bit, because the carry leaves the byte. -/
theorem add_128_eq_xor : ∀ b : Byte, b + 128 = b ^^^ 0x80 := by decide +kernel

/-- Four derivations rotate the nonce once round and add 128 four times to each byte. -/
theorem deriveNonce2_iterate_four (n : Nonce) : deriveNonce2^[4] n = n := by
  have hadd (b : Byte) : b + 128 + 128 + 128 + 128 = b := by
    simp [BitVec.add_assoc]
  refine Vector.ext fun i hi => ?_
  match i, hi with
  | 0, _ | 1, _ | 2, _ | 3, _ => exact hadd _

/-- Three further derivations undo one. -/
theorem deriveNonce2_bijective : Function.Bijective deriveNonce2 :=
  Function.bijective_iff_has_inverse.2
    ⟨deriveNonce2^[3], deriveNonce2_iterate_four, deriveNonce2_iterate_four⟩

/-- A nonce equals its second nonce exactly when each byte is the next one, cyclically, with its top bit
flipped. Two flips cancel, so the bytes alternate between `n[0]` and its flip. -/
theorem deriveNonce2_eq_self_iff (n : Nonce) :
    deriveNonce2 n = n ↔ n[1] = n[0] ^^^ 0x80 ∧ n[2] = n[0] ∧ n[3] = n[0] ^^^ 0x80 := by
  have flip_flip (b : Byte) : b ^^^ 0x80 ^^^ 0x80 = b := by simp
  constructor
  · intro h
    have hflip {i : Nat} (hi : i < 4) :
        n[i] = n[(i + 1) % 4]'(Nat.mod_lt _ (Nat.zero_lt_succ 3)) ^^^ 0x80 := by
      rw [← add_128_eq_xor, ← deriveNonce2_getElem n hi]
      simp only [h]
    have h3 : n[3] = n[0] ^^^ 0x80 := hflip (by decide)
    have h2 : n[2] = n[0] := by rw [← flip_flip n[0], ← h3]; exact hflip (by decide)
    have h1 : n[1] = n[0] ^^^ 0x80 := by rw [← h2]; exact hflip (by decide)
    exact ⟨h1, h2, h3⟩
  · rintro ⟨h1, h2, h3⟩
    refine Vector.ext fun i hi => ?_
    rw [deriveNonce2_getElem, add_128_eq_xor]
    match i, hi with
    | 0, _ => simp [h1]
    | 1, _ => simp [h1, h2]
    | 2, _ => simp [h2, h3]
    | 3, _ => simp [h3]

/-- Settles O34: the four clauses are `nonceOfWord_getElem`, `deriveNonce2_getElem`, which is read over
the naturals, `deriveNonce2_bijective` and `deriveNonce2_eq_self_iff`. -/
theorem secondNonceIsRotatedAndBijective : Obligations.SecondNonceIsRotatedAndBijective :=
  ⟨fun w _ hi => nonceOfWord_getElem w hi,
    fun n _ hi => by rw [deriveNonce2_getElem n hi, BitVec.toNat_add]; rfl,
    deriveNonce2_bijective, deriveNonce2_eq_self_iff⟩

/-! ### The LCR (R113 to R116) -/

/-- Constant selection gives the multiplier that TABLE_A lists at its index (R113). -/
theorem selectMultiplier_eq {p : Params} {n : Nonce} {a : Byte}
    (h : p.tableA[n[2].toNat % p.tableA.length]? = some a) : selectMultiplier p n = a :=
  (List.getElem?_eq_some_iff.1 h).2

/-- Constant selection gives the increment that TABLE_C lists at its index (R113). -/
theorem selectIncrement_eq {p : Params} {n : Nonce} {c : Byte}
    (h : p.tableC[n[3].toNat % p.tableC.length]? = some c) : selectIncrement p n = c :=
  (List.getElem?_eq_some_iff.1 h).2

/-- Settles O35: the selected constants drive the loop, whose entry `i` is known
(`tableGet_lcrTable`). -/
theorem lcrEntriesFollowTheRecurrence : Obligations.LcrEntriesFollowTheRecurrence := by
  intro p n a c ha hc i
  rw [lcr, selectMultiplier_eq ha, selectIncrement_eq hc]
  exact tableGet_lcrTable a c n[0] n[1] i

/-- Settles O36: the recurrence has full period (`lcrNext_minimalPeriod`), so no entry repeats. -/
theorem lcrWritesAPermutation : Obligations.LcrWritesAPermutation := lcr_isPermutation

/-! ### A nonce equal to its second nonce (R112, 42_prga_combiner.md rule R156) -/

/-- The byte lanes of `x ++ b` above lane 0 are those of `x`. -/
theorem extractByte_succ_append {v : Nat} (x : BitVec v) (b : Byte) (k : Nat) :
    (x ++ b).extractLsb' (8 * (k + 1)) 8 = x.extractLsb' (8 * k) 8 :=
  BitVec.extractLsb'_append_eq_of_le (Nat.le_add_left _ _)

/-- The nonce bytes of a word written as four bytes are these bytes, the last one first. -/
theorem nonceOfWord_append (b0 b1 b2 b3 : Byte) :
    nonceOfWord (b3 ++ b2 ++ b1 ++ b0) = #v[b0, b1, b2, b3] := by
  have lane0 : laneByte (b3 ++ b2 ++ b1 ++ b0) 0 = b0 := BitVec.extractLsb'_append_eq_right
  have lane1 : laneByte (b3 ++ b2 ++ b1 ++ b0) 1 = b1 := by
    rw [laneByte, extractByte_succ_append, BitVec.extractLsb'_append_eq_right]
  have lane2 : laneByte (b3 ++ b2 ++ b1 ++ b0) 2 = b2 := by
    rw [laneByte, extractByte_succ_append, extractByte_succ_append,
      BitVec.extractLsb'_append_eq_right]
  have lane3 : laneByte (b3 ++ b2 ++ b1 ++ b0) 3 = b3 := by
    rw [laneByte, extractByte_succ_append, extractByte_succ_append, extractByte_succ_append,
      BitVec.extractLsb'_eq_self]
  simp only [nonceOfWord, lane0, lane1, lane2, lane3]

/-- INIT with a key and a 4-byte nonce constructs an instance (44_lifecycle.md rules R191 to R193). -/
theorem exec_init_of_valid {s : State} (hkey : s.regs.keylen ≠ 0) (hlen : s.regs.nonceLen = 4) :
    exec .init s = .next (s.construct (nonceOfWord s.regs.nonce)) := by
  rw [exec_construct (.inl rfl), constructCheck, State.validateKey_none hkey,
    State.validateNonceLen_none hlen]
  rfl

/-- A nonce equal to its second nonce keys both generators alike. -/
theorem State.construct_gen1_eq_gen2 (s : State) {n : Nonce} (h : deriveNonce2 n = n) :
    (s.construct n).gen1 = (s.construct n).gen2 := by
  rw [State.construct_gen1, State.construct_gen2, h]

/-- Settles O41: the nonce is its own second nonce, and equal generators step alike. -/
theorem nonceEqualToItsSecondGivesEqualKeystreams :
    Obligations.NonceEqualToItsSecondGivesEqualKeystreams := by
  intro s u hkey hlen hnonce
  have hself : deriveNonce2 (nonceOfWord s.regs.nonce) = nonceOfWord s.regs.nonce := by
    rw [hnonce, nonceOfWord_append, deriveNonce2_eq_self_iff]
    exact ⟨rfl, rfl, rfl⟩
  have hgen := s.construct_gen1_eq_gen2 hself
  exact ⟨_, exec_init_of_valid hkey hlen, s.construct_lstate _, hgen, fun k => by rw [hgen]⟩

end Sys2Proof.Machine
end

section
/-! PROOFS. The key scheduler and the drop (41_ksa.md): the x cursor and the permutation law at their
end, what the scheduling reads of the key, and its iterations one by one. -/

namespace Sys2Proof.Machine

/-! ### The end of a construction (R132, R133) -/

/-- The KSA ends with x at 0 (R133). -/
@[simp] theorem ksa_x (ram : Table) (keylen : Nat) (t : Table) : (ksa ram keylen t).x = 0 :=
  drop256_x _

/-- The scheduling phase keeps the permutation property (R132). -/
theorem schedule_isPermutation {t : Table} (h : IsPermutation t) (ram : Table) (keylen : Nat) :
    IsPermutation (schedule ram keylen t) :=
  scheduleSteps_isPermutation h ram keylen _

/-- The drop keeps the permutation property (R132, R133). -/
theorem drop256_isPermutation {t : Table} (h : IsPermutation t) :
    IsPermutation (drop256 t).table :=
  prgaSteps_isPermutation (g := ⟨t, 0, 0⟩) h _

/-- The whole KSA keeps the permutation property (R132). -/
theorem ksa_isPermutation {t : Table} (h : IsPermutation t) (ram : Table) (keylen : Nat) :
    IsPermutation (ksa ram keylen t).table :=
  drop256_isPermutation (schedule_isPermutation h ram keylen)

/-- Settles O37: each iteration of either loop is one swap. -/
theorem schedulingAndStepsKeepPermutations : Obligations.SchedulingAndStepsKeepPermutations :=
  fun ram keylen _ h => ⟨schedule_isPermutation h ram keylen, ksa_isPermutation h ram keylen,
    fun _ _ n => prgaSteps_isPermutation h n⟩

/-- A constructor that answers ERR NONE has constructed an instance: its check raises no code that is
NONE (44_lifecycle.md rules R191, R192). -/
theorem eq_construct_of_err_none {i : Instr} {s t : State} (hi : i = .init ∨ i = .initSeed)
    (h : exec i s = .next t) (herr : t.err = .none) :
    t = s.construct (nonceOfWord s.regs.nonce) := by
  rw [exec_construct hi, Host.Outcome.next.injEq] at h
  subst h
  cases hc : constructCheck i s with
  | some e =>
    obtain rfl := constructCheck_codes hc
    simp [hc, State.raiseError] at herr
  | none => rfl

/-- Settles O19: both generators of a construction are the KSA of an LCR table. -/
theorem constructionEndsWithZeroXAndPermutations :
    Obligations.ConstructionEndsWithZeroXAndPermutations := by
  intro s t i hi h herr
  obtain rfl := eq_construct_of_err_none hi h herr
  simp only [State.construct_gen1, State.construct_gen2]
  exact ⟨ksa_x _ _ _, ksa_x _ _ _, s.keyedGenerator_isPermutation _,
    s.keyedGenerator_isPermutation _⟩

/-! ### What the scheduling reads of the key (R131) -/

/-- The scheduling loop reads the key through `keyByte` alone. -/
theorem scheduleSteps_congr {r r' : Table} {k k' : Nat}
    (h : ∀ i : Byte, keyByte r k i = keyByte r' k' i) (t : Table) (n : Nat) :
    scheduleSteps r k t n = scheduleSteps r' k' t n := by
  induction n with
  | zero => rfl
  | succ n ih => simp only [scheduleSteps, scheduleStep, ih, h]

/-- Keys with the same repeated bytes give the same generator. -/
theorem ksa_congr {r r' : Table} {k k' : Nat} (h : ∀ i : Byte, keyByte r k i = keyByte r' k' i)
    (t : Table) : ksa r k t = ksa r' k' t := by
  rw [ksa, ksa, schedule, schedule, scheduleSteps_congr h]

/-- A key of 256 bytes or more does not repeat: iteration `i` reads byte `i`. -/
theorem keyByte_of_le {k : Nat} (h : 256 ≤ k) (r : Table) (i : Byte) :
    keyByte r k i = tableGet r i := by
  have hi : i.toNat % k = i.toNat := Nat.mod_eq_of_lt (i.isLt.trans_le h)
  simp only [keyByte, keyRead, tableGet, hi]

/-- Settles O38: the KSA reads the key through `keyByte`, which does not tell lengths above 255
apart. -/
theorem keySchedulerReadsOnlyTheRepeatedKey : Obligations.KeySchedulerReadsOnlyTheRepeatedKey :=
  ⟨fun _ _ _ _ t h => ksa_congr h t, fun r _ t hk =>
    ksa_congr (fun i => by rw [keyByte_of_le hk.le, keyByte_of_le le_rfl]) t⟩

/-! ### The iterations of the scheduling (R131) -/

/-- A swap puts the second named entry at the first index. -/
theorem tableGet_tableSwap_left (t : Table) (i j : Byte) :
    tableGet (tableSwap t i j) i = tableGet t j := by
  rw [tableGet_tableSwap, if_pos rfl]
  split
  · next h => rw [h]
  · rfl

/-- A swap puts the first named entry at the second index. -/
theorem tableGet_tableSwap_right (t : Table) (i j : Byte) :
    tableGet (tableSwap t i j) j = tableGet t i := by
  rw [tableGet_tableSwap, if_pos rfl]

/-- A swap keeps every entry it does not name. -/
theorem tableGet_tableSwap_of_ne (t : Table) {i j k : Byte} (hi : k ≠ i) (hj : k ≠ j) :
    tableGet (tableSwap t i j) k = tableGet t k := by
  rw [tableGet_tableSwap, if_neg hj, if_neg hi]

/-- The loop's iteration after the first `i` is the one numbered `i`. -/
theorem scheduleSteps_toNat_succ (ram : Table) (keylen : Nat) (t : Table) (i : Byte) :
    scheduleSteps ram keylen t (i.toNat + 1) =
      scheduleStep ram keylen i (scheduleSteps ram keylen t i.toNat) := by
  rw [scheduleSteps, BitVec.ofNat_toNat, BitVec.setWidth_eq]

/-- An iteration adds the entry at `i` and the repeated key's byte to j, modulo 256. -/
theorem scheduleStep_fst_toNat (ram : Table) (keylen : Nat) (i : Byte) (jt : Byte × Table) :
    (scheduleStep ram keylen i jt).1.toNat =
      (jt.1.toNat + (tableGet jt.2 i).toNat + (keyByte ram keylen i).toNat) % 256 := by
  rw [scheduleStep, BitVec.toNat_add, BitVec.toNat_add, Nat.mod_add_mod]

/-- An iteration exchanges the entries at `i` and at the new j. -/
theorem scheduleStep_snd (ram : Table) (keylen : Nat) (i : Byte) (jt : Byte × Table) :
    (scheduleStep ram keylen i jt).2 = tableSwap jt.2 i (scheduleStep ram keylen i jt).1 := rfl

/-- Settles O55: the sequences are the loops' own intermediate values, of (j, T) and of the drop. -/
theorem keySchedulerSchedulesThenDrops : Obligations.KeySchedulerSchedulesThenDrops := by
  intro ram keylen t _
  refine ⟨⟨fun n => (scheduleSteps ram keylen t n).1, fun n => (scheduleSteps ram keylen t n).2,
      rfl, rfl, rfl, fun i => ?_⟩,
    ⟨prgaSteps ⟨schedule ram keylen t, 0, 0⟩, rfl, fun _ _ => rfl, rfl⟩, ksa_x _ _ _⟩
  simp only [scheduleSteps_toNat_succ, scheduleStep_snd]
  exact ⟨scheduleStep_fst_toNat _ _ _ _, tableGet_tableSwap_left _ _ _,
    tableGet_tableSwap_right _ _ _, fun _ hi hj => tableGet_tableSwap_of_ne _ hi hj⟩

end Sys2Proof.Machine
end

section
/-! PROOFS. The PRGA step, the keystream byte and the combiner (42_prga_combiner.md). -/

namespace Sys2Proof.Machine

/-! ### The combiner (R154) -/

/-- The two shifted bytes of the combiner do not overlap: `k1[2:0]` fills bits 7:5 and `k2[7:3]` bits
4:0. -/
theorem shiftLeft_or_ushiftRight_eq_append (k1 k2 : Byte) :
    (k1 <<< 5) ||| (k2 >>> 3) = k1.extractLsb' 0 3 ++ k2.extractLsb' 3 5 := by
  refine BitVec.eq_of_getLsbD_eq fun i hi => ?_
  rw [BitVec.getLsbD_or, BitVec.getLsbD_shiftLeft, BitVec.getLsbD_ushiftRight, BitVec.getLsbD_append,
    BitVec.getLsbD_extractLsb', BitVec.getLsbD_extractLsb']
  by_cases hlow : i < 5
  · simp [hlow]
  · have hk2 : k2.getLsbD (3 + i) = false := BitVec.getLsbD_of_ge _ _ (by omega)
    have hk1 : i - 5 < 3 := by omega
    simp [hlow, hi, hk1, hk2]

/-- Settles O40: the sum modulo 256 is the sum of bytes, and the shifted bytes are a concatenation. -/
theorem combinerHasItsBitForm : Obligations.CombinerHasItsBitForm := by
  intro k1 k2
  have hsum : BitVec.ofNat 8 ((k1.toNat + k2.toNat) % 256) = k1 + k2 :=
    BitVec.eq_of_toNat_eq (by simp)
  rw [combine, shiftLeft_or_ushiftRight_eq_append, hsum]

/-! ### The step and the keystream byte (R150, R152) -/

/-- A step adds the entry at the new x to y (R150). -/
theorem prgaStep_y (g : Generator) :
    (prgaStep g).y = g.y + tableGet g.table (g.x + 1) := rfl

/-- A step exchanges the entries at the new cursors (R150). -/
theorem prgaStep_table (g : Generator) :
    (prgaStep g).table = tableSwap g.table (prgaStep g).x (prgaStep g).y := rfl

/-- The keystream byte, with its index as a natural number (R152). -/
theorem ksByte_eq_getElem (g : Generator) :
    ksByte g = g.table[((tableGet g.table g.x).toNat + (tableGet g.table g.y).toNat) % 256]'
      (Nat.mod_lt _ (Nat.zero_lt_succ 255)) := by
  simp only [ksByte, tableGet, BitVec.toNat_add]

/-- Settles O39: the table after a step is one swap of the table before it. -/
theorem prgaStepAdvancesCursorsAndSwaps : Obligations.PrgaStepAdvancesCursorsAndSwaps := by
  intro g x' y'
  have htable : (prgaStep g).table = tableSwap g.table x' y' := prgaStep_table g
  refine ⟨prgaStep_x g, prgaStep_y g, ?_, ?_, fun i hx hy => ?_, prgaStep_isPermutation, rfl,
    fun _ => rfl, ksByte_eq_getElem g⟩
  · rw [htable, tableGet_tableSwap_left]
  · rw [htable, tableGet_tableSwap_right]
  · rw [htable, tableGet_tableSwap_of_ne _ hx hy]

/-! ### The x cursors (R151) -/

/-- `n` steps add `n` to x, as natural numbers modulo 256. -/
theorem prgaSteps_x_toNat (g : Generator) (n : Nat) :
    (prgaSteps g n).x.toNat = (g.x.toNat + n) % 256 := by
  rw [prgaSteps_x, BitVec.toNat_add, BitVec.toNat_ofNat, Nat.add_mod_mod]

/-- The loop of either transform steps the first generator COUNT times. -/
@[simp] theorem transformed_gen1 (final : Bool) (s : State) :
    (transformed final s).gen1 = prgaSteps s.gen1 s.regs.count.toNat := by rw [transformed_eq]

/-- The loop of either transform steps the second generator COUNT times. -/
@[simp] theorem transformed_gen2 (final : Bool) (s : State) :
    (transformed final s).gen2 = prgaSteps s.gen2 s.regs.count.toNat := by rw [transformed_eq]

/-- Settles O30: a construction ends with the drop, at x = 0, and a transform takes COUNT steps. -/
theorem cursorXCountsPositions : Obligations.CursorXCountsPositions := by
  refine ⟨prgaSteps_x_toNat, fun s t i hi h herr => ?_, fun s t final h herr => ?_⟩
  · obtain ⟨hx1, hx2, -⟩ := constructionEndsWithZeroXAndPermutations s t i hi h herr
    exact ⟨hx1, hx2⟩
  · obtain ⟨-, rfl⟩ := exec_transformInstr_success h herr
    rw [State.succeed_gen1, State.succeed_gen2, transformed_gen1, transformed_gen2]
    exact ⟨prgaSteps_x_toNat _ _, prgaSteps_x_toNat _ _⟩

end Sys2Proof.Machine
end

section
/-! PROOFS. The transforms (43_transform.md): the checks in their order, what a transform on valid
operands leaves, and what follows for undoing and for splitting one. -/

namespace Sys2Proof.Machine

/-! ### The two outcomes of a transform -/

/-- A transform whose check raises an error does nothing else (60_exceptions.md rule R214). -/
theorem exec_transformInstr_of_error {final : Bool} {s : State} {e : ErrCode}
    (h : transformCheck final s = some e) :
    exec (transformInstr final) s = .next (s.raiseError e) := by
  rw [exec_transformInstr, h, State.unlessError_some]

/-- A transform that passes its checks runs the loop and returns COUNT (R174, R176). -/
theorem exec_transformInstr_of_valid {final : Bool} {s : State} (h : transformCheck final s = none) :
    exec (transformInstr final) s = .next ((transformed final s).succeed s.regs.count) := by
  rw [exec_transformInstr, h, State.unlessError_none]

/-! ### The checks (R170, R171, R212) -/

/-- In DISPOSED a transform raises DISPOSED before any other check (R212, R213). -/
theorem transformCheck_of_disposed (final : Bool) {s : State} (h : s.lstate = .disposed) :
    transformCheck final s = some .disposed := by
  simp [transformCheck, State.checkLifecycle, h]

/-- In UNINITIALIZED a transform raises NOT_READY before any other check (R212, R213). -/
theorem transformCheck_of_uninitialized (final : Bool) {s : State} (h : s.lstate = .uninitialized) :
    transformCheck final s = some .notReady := by
  simp [transformCheck, State.checkLifecycle, h]

/-- In READY the check of a transform is that of its operands. -/
theorem transformCheck_of_ready (final : Bool) {s : State} (h : s.lstate = .ready) :
    transformCheck final s = if final then s.validateTransformFinal else s.validateTransform := by
  rw [transformCheck, (checkLifecycle_eq_none s).2 h, Option.none_or]

/-- ValidateTransform: absence and a descriptor outside DMEM have one code, so either suffices
whatever the other check says. -/
theorem validateTransform_eq_invalidArgument {s : State}
    (h : (s.inPresent = false ∨ s.outPresent = false) ∨
      s.inBuffer.fits s.params.dmemSize = false ∨ s.outBuffer.fits s.params.dmemSize = false) :
    s.validateTransform = some .invalidArgument := by
  unfold State.validateTransform
  split
  · rfl
  · next hpresent => rw [if_pos (h.resolve_left hpresent)]

/-- ValidateTransform: a slice outside its buffer, once the earlier checks have passed. -/
theorem validateTransform_eq_outOfRange {s : State}
    (hpresent : s.inPresent = true ∧ s.outPresent = true)
    (hfits : s.inBuffer.fits s.params.dmemSize = true ∧ s.outBuffer.fits s.params.dmemSize = true)
    (h : s.inBuffer.holds s.inOffset s.countOf = false ∨
      s.outBuffer.holds s.outOffset s.countOf = false) :
    s.validateTransform = some .outOfRange := by
  rw [State.validateTransform, if_neg (by simp [hpresent]), if_neg (by simp [hfits]), if_pos h]

/-- ValidateTransformFinal: its first three checks have one code, so any of them suffices. -/
theorem validateTransformFinal_eq_invalidArgument {s : State}
    (h : s.inPresent = false ∨ s.inBuffer.fits s.params.dmemSize = false ∨
      s.freshBuffer.fits s.params.dmemSize = false) :
    s.validateTransformFinal = some .invalidArgument := by
  unfold State.validateTransformFinal
  split
  · rfl
  · next hpresent =>
    split
    · rfl
    · next hfits => rw [if_pos ((h.resolve_left hpresent).resolve_left hfits)]

/-- ValidateTransformFinal: an input slice outside its buffer, once the earlier checks have passed. -/
theorem validateTransformFinal_eq_outOfRange {s : State} (hpresent : s.inPresent = true)
    (hfits : s.inBuffer.fits s.params.dmemSize = true)
    (hfresh : s.freshBuffer.fits s.params.dmemSize = true)
    (h : s.inBuffer.holds s.inOffset s.countOf = false) :
    s.validateTransformFinal = some .outOfRange := by
  rw [State.validateTransformFinal, if_neg (by simp [hpresent]), if_neg (by simp [hfits]),
    if_neg (by simp [hfresh]), if_pos h]

/-- Settles O25: each clause is one outcome of the check. -/
theorem transformErrorsInPriorityOrder : Obligations.TransformErrorsInPriorityOrder := by
  intro s bad
  have bad_of {e : ErrCode} (h : transformCheck false s = some e) : bad e :=
    exec_transformInstr_of_error h
  have ready {e : ErrCode} (hl : s.lstate = .ready) (h : s.validateTransform = some e) : bad e :=
    bad_of ((transformCheck_of_ready false hl).trans h)
  refine ⟨fun hl => bad_of (transformCheck_of_disposed false hl),
    fun hl => bad_of (transformCheck_of_uninitialized false hl),
    fun hl habsent => ready hl (validateTransform_eq_invalidArgument (.inl habsent)),
    fun hl hout => ready hl (validateTransform_eq_invalidArgument (.inr ?_)),
    fun hl hin hout hfin hfout hslice =>
      ready hl (validateTransform_eq_outOfRange ⟨hin, hout⟩ ?_ ?_)⟩
  · rw [Descriptor.fits_eq_false, Descriptor.fits_eq_false]
    exact hout
  · rw [Descriptor.fits_eq_true, Descriptor.fits_eq_true]
    exact ⟨hfin, hfout⟩
  · rw [Descriptor.holds_eq_false, Descriptor.holds_eq_false]
    exact hslice

/-- Settles O26: each clause is one outcome of the check. -/
theorem transformFinalErrorsInPriorityOrder : Obligations.TransformFinalErrorsInPriorityOrder := by
  intro s bad
  have bad_of {e : ErrCode} (h : transformCheck true s = some e) : bad e :=
    exec_transformInstr_of_error h
  have ready {e : ErrCode} (hl : s.lstate = .ready) (h : s.validateTransformFinal = some e) :
      bad e := bad_of ((transformCheck_of_ready true hl).trans h)
  refine ⟨fun hl => bad_of (transformCheck_of_disposed true hl),
    fun hl => bad_of (transformCheck_of_uninitialized true hl),
    fun hl hinvalid => ready hl (validateTransformFinal_eq_invalidArgument ?_),
    fun hl hin hfin hfresh hslice => ready hl (validateTransformFinal_eq_outOfRange hin
      (Descriptor.fits_eq_true.2 hfin) (Descriptor.fits_eq_true.2 hfresh)
      (Descriptor.holds_eq_false.2 hslice))⟩
  rw [Descriptor.fits_eq_false, Descriptor.fits_eq_false]
  exact hinvalid

/-! ### What a transform on valid operands leaves (R173) -/

/-- Output byte `i` is the byte position `i` read, XOR its combined byte: the byte an earlier position
stored there, if one did, and otherwise the byte that stood there before. -/
theorem memRead_transformed_out {final : Bool} {s : State} (hw : Memory.wf s.dmemInit s.dmem)
    {i : Nat} (hi : i < s.regs.count.toNat) :
    (transformed final s).memRead (s.storeAddr final i) =
      (if s.storeAddr final 0 ≤ s.inAddr i ∧ s.inAddr i < s.storeAddr final i then
        (transformed final s).memRead (s.inAddr i) else s.memRead (s.inAddr i)) ^^^
      keystream s.gen1 s.gen2 i := by
  cases final <;>
    exact (memRead_xorStream_out _ _ hw hi).trans
      (congrArg (· ^^^ keystream s.gen1 s.gen2 i) (memRead_xorStream_in _ _ hw hi))

/-- Where the regions do not overlap, output byte `i` is input byte `i` XOR its combined byte. -/
theorem memRead_transformed_out_of_noOverlap {final : Bool} {s : State}
    (hw : Memory.wf s.dmemInit s.dmem) (ho : s.noOverlap final) {i : Nat}
    (hi : i < s.regs.count.toNat) :
    (transformed final s).memRead (s.storeAddr final i) =
      s.memRead (s.inAddr i) ^^^ keystream s.gen1 s.gen2 i := by
  have hstored : ∀ j, j < i → s.inAddr i ≠ s.storeAddr final j := fun j hj =>
    ho i j hi (hj.trans hi) hj.ne'
  cases final <;>
    exact (memRead_xorStream_out _ _ hw hi).trans
      (congrArg (· ^^^ keystream s.gen1 s.gen2 i) (memRead_xorStream_of_ne _ _ hw hstored))

/-- A transform on valid operands: RESULT and ERR, the generators, the output bytes, the DMEM frame,
and that nothing else changes. -/
theorem exec_transformInstr_spec {final : Bool} {s : State} (hw : Memory.wf s.dmemInit s.dmem)
    (hc : transformCheck final s = none) :
    ∃ t, exec (transformInstr final) s = .next t ∧ t.result = s.regs.count ∧ t.err = .none ∧
      t.gen1 = prgaSteps s.gen1 s.regs.count.toNat ∧
      t.gen2 = prgaSteps s.gen2 s.regs.count.toNat ∧
      (∀ i, i < s.regs.count.toNat → t.memRead (s.storeAddr final i) =
        (if s.storeAddr final 0 ≤ s.inAddr i ∧ s.inAddr i < s.storeAddr final i then
          t.memRead (s.inAddr i) else s.memRead (s.inAddr i)) ^^^ keystream s.gen1 s.gen2 i) ∧
      (∀ a, (∀ i, i < s.regs.count.toNat → a ≠ s.storeAddr final i) →
        t.memRead a = s.memRead a) ∧
      t = { s with gen1 := t.gen1, gen2 := t.gen2, dmem := t.dmem, result := t.result,
                   err := t.err } := by
  refine ⟨_, exec_transformInstr_of_valid hc, rfl, rfl, transformed_gen1 _ _, transformed_gen2 _ _,
    fun i hi => memRead_transformed_out hw hi, fun a ha => memRead_transformed_of_ne hw ha, ?_⟩
  rw [transformed_eq]
  rfl

/-- Settles O27: the hypotheses are TRANSFORM's checks. -/
theorem transformXorsTheStream : Obligations.TransformXorsTheStream := by
  intro s hw hl hin hout hfin hfout hslice hoslice
  exact exec_transformInstr_spec hw ((transformCheck_false_eq_none s).2
    ⟨hl, ⟨hin, hout⟩, ⟨hfin, hfout⟩, hslice, hoslice⟩)

/-- Settles O28: the hypotheses are TRANSFORM_FINAL's checks. -/
theorem transformFinalXorsTheStream : Obligations.TransformFinalXorsTheStream := by
  intro s hw hl hin hfin hfresh hslice
  exact exec_transformInstr_spec hw ((transformCheck_true_eq_none s).2
    ⟨hl, hin, hfin, hfresh, hslice⟩)

/-! ### No positions (R177) -/

/-- The loop of no positions leaves the state. -/
theorem transformed_of_count_zero (final : Bool) {s : State} (h : s.regs.count = 0) :
    transformed final s = s := by
  have hn : s.countOf = 0 := by rw [State.countOf, h]; rfl
  cases final <;> simp [transformed, hn, xorStream]

/-- Settles O29: the loop has no positions, and success returns the COUNT 0. -/
theorem zeroCountTransformStepsNothing : Obligations.ZeroCountTransformStepsNothing := by
  intro s t final hcount h herr
  obtain ⟨-, rfl⟩ := exec_transformInstr_success h herr
  rw [transformed_of_count_zero final hcount, hcount]
  rfl

/-! ### Undoing a transform (R178) -/

/-- Settles O31: both transforms XOR position `i` with the same combined byte. -/
theorem transformIsItsOwnInverse : Obligations.TransformIsItsOwnInverse := by
  intro s t u v f g hws hwu hs hts hu hvu hgen1 hgen2 hcount hos hou hin
  obtain ⟨-, rfl⟩ := exec_transformInstr_success hs hts
  obtain ⟨-, rfl⟩ := exec_transformInstr_success hu hvu
  refine ⟨fun i hi => ?_, ?_, ?_⟩
  · calc (transformed g u).memRead (u.storeAddr g i)
        = u.memRead (u.inAddr i) ^^^ keystream u.gen1 u.gen2 i :=
          memRead_transformed_out_of_noOverlap hwu hou (hcount ▸ hi)
      _ = (transformed f s).memRead (s.storeAddr f i) ^^^ keystream s.gen1 s.gen2 i := by
          rw [hin i hi, hgen1, hgen2]
          rfl
      _ = s.memRead (s.inAddr i) ^^^ keystream s.gen1 s.gen2 i ^^^ keystream s.gen1 s.gen2 i := by
          rw [memRead_transformed_out_of_noOverlap hws hos hi]
      _ = s.memRead (s.inAddr i) := by rw [BitVec.xor_assoc, BitVec.xor_self, BitVec.xor_zero]
  · simp [hgen1, hcount]
  · simp [hgen2, hcount]

/-- A construction's generator depends on the repeated key, the nonce and the parameters alone
(44_lifecycle.md rule R199). -/
theorem State.keyedGenerator_congr {s u : State}
    (hkey : ∀ k : Byte,
      keyByte s.keyRam s.regs.keylen.toNat k = keyByte u.keyRam u.regs.keylen.toNat k)
    (hparams : s.params = u.params) (n : Nonce) : s.keyedGenerator n = u.keyedGenerator n := by
  rw [State.keyedGenerator, State.keyedGenerator, ksa_congr hkey, hparams]

/-- Constructions from the same repeated key, nonce and parameters give the same generators (R199). -/
theorem State.construct_generators_congr {s u : State}
    (hkey : ∀ k : Byte,
      keyByte s.keyRam s.regs.keylen.toNat k = keyByte u.keyRam u.regs.keylen.toNat k)
    (hnonce : s.regs.nonce = u.regs.nonce) (hparams : s.params = u.params) :
    (s.construct (nonceOfWord s.regs.nonce)).gen1 = (u.construct (nonceOfWord u.regs.nonce)).gen1 ∧
    (s.construct (nonceOfWord s.regs.nonce)).gen2 =
      (u.construct (nonceOfWord u.regs.nonce)).gen2 := by
  simp only [State.construct_gen1, State.construct_gen2, hnonce]
  exact ⟨State.keyedGenerator_congr hkey hparams _, State.keyedGenerator_congr hkey hparams _⟩

/-- Settles O32: the two constructions give equal generators, which stay equal `n` positions on; from
there it is O31. -/
theorem decryptingReturnsThePlaintext : Obligations.DecryptingReturnsThePlaintext := by
  intro s₀ s₁ s t u₀ u₁ u v i j f g n hi hj hs₁ hs₁err hu₁ hu₁err hkey hnonce hparams
    hs1 hs2 hu1 hu2 hws hwu hs hterr hu hverr hcount hos hou hin
  obtain rfl := exec_construct_success hi hs₁ hs₁err
  obtain rfl := exec_construct_success hj hu₁ hu₁err
  obtain ⟨h1, h2⟩ := State.construct_generators_congr hkey hnonce hparams
  obtain ⟨hplain, hv1, hv2⟩ := transformIsItsOwnInverse s t u v f g hws hwu hs hterr hu hverr
    (by rw [hu1, hs1, h1]) (by rw [hu2, hs2, h2]) hcount hos hou hin
  obtain ⟨-, rfl⟩ := exec_transformInstr_success hs hterr
  rw [hv1, hv2, ← h1, ← h2, State.succeed_gen1, State.succeed_gen2, transformed_gen1,
    transformed_gen2, hs1, hs2, prgaSteps_add, prgaSteps_add]
  exact ⟨hplain, rfl, rfl, rfl, rfl⟩

/-! ### Splitting a transform (R179) -/

/-- The DMEM one position leaves depends on DMEM and the generators alone. -/
theorem xorPosition_dmem_congr {s m : State} (hgen1 : m.gen1 = s.gen1) (hgen2 : m.gen2 = s.gen2)
    (hinit : m.dmemInit = s.dmemInit) (hdmem : m.dmem = s.dmem) (ia oa : Nat) :
    (xorPosition ia oa m).dmem = (xorPosition ia oa s).dmem := by
  simp [xorPosition, State.memRead, State.combinedByte, hgen1, hgen2, hinit, hdmem]

/-- The loop goes on where it stopped: from a state whose generators and DMEM are those after `p`
positions, on the rest of both slices, `n` positions leave the DMEM of `p + n`. -/
theorem xorStream_dmem_add {s m : State} {ob oo p : Nat} (hgen1 : m.gen1 = prgaSteps s.gen1 p)
    (hgen2 : m.gen2 = prgaSteps s.gen2 p) (hinit : m.dmemInit = s.dmemInit)
    (hdmem : m.dmem = (xorStream ob oo s p).dmem) (hin : ∀ n, m.inAddr n = s.inAddr (p + n))
    (n : Nat) : (xorStream ob (oo + p) m n).dmem = (xorStream ob oo s (p + n)).dmem := by
  induction n with
  | zero => exact hdmem
  | succ n ih =>
    have hout : outAddr ob (oo + p) n = outAddr ob oo (p + n) := by
      simp only [outAddr, Nat.add_assoc]
    rw [← Nat.add_assoc, xorStream, xorStream, hin, hout]
    exact xorPosition_dmem_congr (by simp [hgen1, prgaSteps_add]) (by simp [hgen2, prgaSteps_add])
      (by simp [hinit]) ih _ _

/-- A shorter COUNT on the same slices leaves the DMEM of the loop's first positions. -/
theorem transformed_setRegs_count_dmem (s : State) (p : Word) :
    (transformed false (s.setRegs { s.regs with count := p })).dmem =
      (xorStream s.outBuffer.base s.outOffset s p.toNat).dmem := by
  have h := xorStream_dmem_add (s := s) (m := s.setRegs { s.regs with count := p })
    (ob := s.outBuffer.base) (oo := s.outOffset) (p := 0) rfl rfl rfl rfl
    (fun n => by rw [Nat.zero_add]; rfl) p.toNat
  rwa [Nat.zero_add] at h

/-- Moving an offset up by part of a slice that ends below 2^32 does not wrap. -/
theorem toNat_add_of_le {off p len : Word} {n : Nat} (h : off.toNat + n ≤ len.toNat)
    (hp : p.toNat ≤ n) : (off + p).toNat = off.toNat + p.toNat :=
  BitVec.toNat_add_of_lt (by omega)

/-- The registers for the rest of both slices, `q` positions, after the first `p`. -/
def HostRegs.restOfSlices (r : HostRegs) (p q : Word) : HostRegs :=
  { r with count := q, inOff := r.inOff + p, outOff := r.outOff + p }

/-- The registers for the first `p` positions of both slices name a valid transform. -/
theorem transformCheck_setRegs_count {s : State} (hc : transformCheck false s = none) {p : Word}
    (hp : p.toNat ≤ s.regs.count.toNat) :
    transformCheck false (s.setRegs { s.regs with count := p }) = none := by
  obtain ⟨hl, hpresent, hfits, hin, hout⟩ := (transformCheck_false_eq_none s).1 hc
  exact (transformCheck_false_eq_none _).2 ⟨hl, hpresent, hfits,
    (Nat.add_le_add_left hp _).trans hin, (Nat.add_le_add_left hp _).trans hout⟩

/-- The registers for the rest of both slices name a valid transform, in any READY state with the same
parameters. -/
theorem transformCheck_restOfSlices {s m : State} (hc : transformCheck false s = none) {p q : Word}
    (hpq : p.toNat + q.toNat = s.regs.count.toNat) (hl : m.lstate = s.lstate)
    (hparams : m.params = s.params) :
    transformCheck false (m.setRegs (s.regs.restOfSlices p q)) = none := by
  obtain ⟨hready, hpresent, hfits, hin, hout⟩ := (transformCheck_false_eq_none s).1 hc
  refine (transformCheck_false_eq_none _).2 ⟨hl.trans hready, hpresent, ?_, ?_, ?_⟩
  · rw [State.setRegs_params, hparams]
    exact hfits
  · show (s.regs.inOff + p).toNat + q.toNat ≤ s.regs.inLen.toNat
    rw [toNat_add_of_le hin (by omega)]
    omega
  · show (s.regs.outOff + p).toNat + q.toNat ≤ s.regs.outLen.toNat
    rw [toNat_add_of_le hout (by omega)]
    omega

/-- The loop over the rest of both slices, from a state with the generators and DMEM of the first `p`
positions, ends with the DMEM of the whole. -/
theorem transformed_restOfSlices_dmem {s m : State} (hc : transformCheck false s = none) {p q : Word}
    (hpq : p.toNat + q.toNat = s.regs.count.toNat) (hgen1 : m.gen1 = prgaSteps s.gen1 p.toNat)
    (hgen2 : m.gen2 = prgaSteps s.gen2 p.toNat) (hinit : m.dmemInit = s.dmemInit)
    (hdmem : m.dmem = (xorStream s.outBuffer.base s.outOffset s p.toNat).dmem) :
    (transformed false (m.setRegs (s.regs.restOfSlices p q))).dmem =
      (transformed false s).dmem := by
  obtain ⟨-, -, -, hin, hout⟩ := (transformCheck_false_eq_none s).1 hc
  have hinOff := toNat_add_of_le hin (p := p) (by omega)
  have hinAddr (n : Nat) :
      (m.setRegs (s.regs.restOfSlices p q)).inAddr n = s.inAddr (p.toNat + n) := by
    show s.regs.inBase.toNat + (s.regs.inOff + p).toNat + n =
      s.regs.inBase.toNat + s.regs.inOff.toNat + (p.toNat + n)
    omega
  show (xorStream s.outBuffer.base (s.regs.outOff + p).toNat _ q.toNat).dmem =
    (xorStream s.outBuffer.base s.outOffset s s.regs.count.toNat).dmem
  rw [toNat_add_of_le hout (by omega), ← hpq]
  exact xorStream_dmem_add (m := m.setRegs (s.regs.restOfSlices p q)) hgen1 hgen2 hinit hdmem hinAddr
    q.toNat

/-- Settles O33: the second command goes on where the first one stopped. -/
theorem splitTransformsGiveTheSameBytes : Obligations.SplitTransformsGiveTheSameBytes := by
  intro s t p q hpq h herr
  obtain ⟨hc, rfl⟩ := exec_transformInstr_success (final := false) h herr
  have hfirst := transformCheck_setRegs_count hc (p := p) (by omega)
  have hframe := transformed_eq false (s.setRegs { s.regs with count := p })
  have hrest := transformCheck_restOfSlices (q := q)
    (m := (transformed false (s.setRegs { s.regs with count := p })).succeed p) hc hpq
    (by rw [hframe]; rfl) (by rw [hframe]; rfl)
  refine ⟨_, _, exec_transformInstr_of_valid hfirst, rfl, exec_transformInstr_of_valid hrest, rfl,
    ?_, ?_, ?_⟩
  · exact transformed_restOfSlices_dmem hc hpq (transformed_gen1 _ _) (transformed_gen2 _ _)
      (by rw [hframe]; rfl) (transformed_setRegs_count_dmem s p)
  · simp [HostRegs.restOfSlices, ← hpq, prgaSteps_add]
  · simp [HostRegs.restOfSlices, ← hpq, prgaSteps_add]

end Sys2Proof.Machine
end

section
/-! PROOFS. The lifecycle commands (44_lifecycle.md): what a construction checks and builds, what
DISPOSE clears, the transitions of LSTATE, and the determinism of a construction. -/

namespace Sys2Proof.Machine

/-! ### The two outcomes of a construction (R191 to R194) -/

/-- A construction whose check raises an error does nothing else (60_exceptions.md rule R214). -/
theorem exec_construct_of_error {i : Instr} {s : State} {e : ErrCode} (hi : i = .init ∨ i = .initSeed)
    (h : constructCheck i s = some e) : exec i s = .next (s.raiseError e) := by
  rw [exec_construct hi, h, State.unlessError_some]

/-- A construction that passes its check constructs from the little-endian bytes of NONCE (R192). -/
theorem exec_construct_of_valid {i : Instr} {s : State} (hi : i = .init ∨ i = .initSeed)
    (h : constructCheck i s = none) :
    exec i s = .next (s.construct (nonceOfWord s.regs.nonce)) := by
  rw [exec_construct hi, h, State.unlessError_none]

/-- What Construct writes, with its generators written out (R192). -/
theorem State.construct_eq (s : State) (n : Nonce) :
    s.construct n = { s with
      gen1 := ksa s.keyRam s.regs.keylen.toNat (lcr s.params n)
      gen2 := ksa s.keyRam s.regs.keylen.toNat (lcr s.params (deriveNonce2 n))
      lstate := .ready
      result := 0
      err := .none } := by
  simp only [State.construct, State.setGenerators, State.setLState, State.succeed,
    State.keyedGenerator]

/-- INIT refuses an empty key and a nonce that is not 4 bytes with one code, so either suffices
whatever the other check says (R191). -/
theorem constructCheck_init_eq_invalidArgument {s : State}
    (h : s.regs.keylen = 0 ∨ s.regs.nonceLen ≠ 4) :
    constructCheck .init s = some .invalidArgument := by
  by_cases hkey : s.regs.keylen = 0
  · rw [constructCheck, State.validateKey_some hkey, Option.some_or]
  · rw [constructCheck, State.validateKey_none hkey,
      State.validateNonceLen_some (h.resolve_left hkey), Option.none_or]

/-- With a 4-byte nonce INIT checks what INIT_SEED checks (R191). -/
theorem constructCheck_init_eq_initSeed {s : State} (h : s.regs.nonceLen = 4) :
    constructCheck .init s = constructCheck .initSeed s := by
  rw [constructCheck, constructCheck, State.validateNonceLen_none h, Option.or_none]

/-- Settles O17: the check refuses, or Construct runs on the nonce bytes. -/
theorem initValidatesThenConstructs : Obligations.InitValidatesThenConstructs := by
  intro s
  refine ⟨fun h => exec_construct_of_error (.inl rfl) (constructCheck_init_eq_invalidArgument h),
    fun hkey hlen => ?_⟩
  rw [exec_init_of_valid hkey hlen, State.construct_eq]

/-- Settles O18: INIT_SEED's check is that of the key, which is INIT's once NONCE_LEN is 4. -/
theorem initSeedIsInitOnTheSeedBytes : Obligations.InitSeedIsInitOnTheSeedBytes := by
  intro s
  refine ⟨fun hkey => exec_construct_of_error (.inr rfl) (State.validateKey_some hkey),
    fun hkey => ?_, fun hlen => ?_⟩
  · rw [exec_construct_of_valid (.inr rfl) (State.validateKey_none hkey), State.construct_eq]
  · rw [exec_construct (.inr rfl), exec_construct (.inl rfl), constructCheck_init_eq_initSeed hlen]

/-! ### DISPOSE (R196) -/

/-- A disposed state is left as it is by a second DISPOSE (R196). -/
theorem disposed_idem (s : State) : disposed (disposed s) = disposed s := rfl

/-- Settles O20: both tables and KEY RAM are the zero table. -/
theorem disposeClearsTablesCursorsAndKey : Obligations.DisposeClearsTablesCursorsAndKey := by
  refine ⟨by decide, fun s => ⟨disposed s, exec_dispose s, fun i => ?_, rfl, rfl, rfl, rfl, rfl, rfl,
    rfl, rfl, ?_⟩⟩
  · have h := tableGet_zeroTable i
    exact ⟨h, h, h⟩
  · rw [exec_dispose, disposed_idem]

/-! ### The transitions of LSTATE (R190) -/

/-- A construction that answers an error leaves LSTATE as it was (R190, R193). -/
theorem exec_construct_lstate_of_error {i : Instr} {s t : State} (hi : i = .init ∨ i = .initSeed)
    (h : exec i s = .next t) (herr : t.err ≠ .none) : t.lstate = s.lstate := by
  cases hc : constructCheck i s with
  | some e =>
    rw [exec_construct_of_error hi hc, Host.Outcome.next.injEq] at h
    rw [← h, State.raiseError_lstate]
  | none =>
    rw [exec_construct_of_valid hi hc, Host.Outcome.next.injEq] at h
    exact absurd (h ▸ s.construct_err _) herr

/-- The loop of either transform keeps LSTATE. -/
@[simp] theorem transformed_lstate (final : Bool) (s : State) :
    (transformed final s).lstate = s.lstate := by rw [transformed_eq]

/-- A transform leaves LSTATE as it was, whether it succeeds or not (R190). -/
theorem exec_transformInstr_lstate {final : Bool} {s t : State}
    (h : exec (transformInstr final) s = .next t) : t.lstate = s.lstate := by
  cases hc : transformCheck final s with
  | some e =>
    rw [exec_transformInstr_of_error hc, Host.Outcome.next.injEq] at h
    rw [← h, State.raiseError_lstate]
  | none =>
    rw [exec_transformInstr_of_valid hc, Host.Outcome.next.injEq] at h
    rw [← h, State.succeed_lstate, transformed_lstate]

/-- A transform whose check raises an error answers that error. -/
theorem exec_transformInstr_err {final : Bool} {s t : State} {e : ErrCode}
    (h : exec (transformInstr final) s = .next t) (hc : transformCheck final s = some e) :
    t.err = e := by
  rw [exec_transformInstr_of_error hc, Host.Outcome.next.injEq] at h
  rw [← h, State.raiseError_err]

/-- An illegal word leaves LSTATE as it was (R190). -/
theorem completeCommand_lstate_of_illegal {s t : State} {why : IllegalWord}
    (hd : decode s.cmdLatch = .illegal why) (h : completeCommand s = .next t) :
    t.lstate = s.lstate := by
  rw [completeCommand_of_illegal hd, Host.Outcome.next.injEq] at h
  rw [← h, State.clearBusy_lstate, State.raiseError_lstate]

/-- A reset leads to UNINITIALIZED (R190). -/
theorem lstate_of_reset {s t : State} (h : step s = .next t) {draw : List Byte} {ans : Bool}
    {held : List Access} {rest : List Input} (hm : s.nextMove = .reset draw ans held rest) :
    t.lstate = .uninitialized := by
  rw [step, hm] at h
  rw [← Host.Outcome.next.inj h, State.resetBlock_eq]
  rfl

/-- Settles O21: the rows of the table, one lemma each. -/
theorem lifecycleTransitionsFollowTheTable : Obligations.LifecycleTransitionsFollowTheTable := by
  refine ⟨fun s t i hi h => ⟨fun herr => ?_, exec_construct_lstate_of_error hi h⟩, fun s t h => ?_,
    fun s t final h => ⟨exec_transformInstr_lstate h,
      fun hl => exec_transformInstr_err h (transformCheck_of_uninitialized final hl),
      fun hl => exec_transformInstr_err h (transformCheck_of_disposed final hl)⟩,
    fun _ _ _ hd h => completeCommand_lstate_of_illegal hd h,
    fun _ _ _ _ _ _ hm h => lstate_of_reset h hm⟩
  · rw [exec_construct_success hi h herr, State.construct_lstate]
  · rw [exec_dispose, Host.Outcome.next.injEq] at h
    rw [← h]
    rfl

/-! ### Determinism of a construction (R199) -/

/-- Settles O42: both constructions succeeded, so each built its generators from the repeated key, the
nonce and the parameters alone. -/
theorem constructionIsDeterministic : Obligations.ConstructionIsDeterministic := by
  intro s t u v i j hi hj ht hterr hv hverr hkey hnonce hparams
  obtain rfl := exec_construct_success hi ht hterr
  obtain rfl := exec_construct_success hj hv hverr
  exact State.construct_generators_congr hkey hnonce hparams

end Sys2Proof.Machine
end

section
/-! PROOFS. Errors (60_exceptions.md): which code a command raises, what RESULT is then, that an error
changes nothing else, and how long ERR and RESULT stand. -/

namespace Sys2Proof.Machine

/-! ### Which command raises which code (R211) -/

/-- In this state this command may leave this code: the rows of R211's table. -/
def MayRaise (i : Instr) (s : State) : ErrCode → Prop
  | .none => True
  | .illegalCommand => False
  | .invalidArgument => i ≠ .dispose
  | .outOfRange => i = .transform ∨ i = .transformFinal
  | .notReady => (i = .transform ∨ i = .transformFinal) ∧ s.lstate = .uninitialized
  | .disposed => (i = .transform ∨ i = .transformFinal) ∧ s.lstate = .disposed

/-- The two commands of the datapath. -/
theorem exists_eq_transformInstr {i : Instr} :
    (∃ final, i = transformInstr final) ↔ i = .transform ∨ i = .transformFinal :=
  Bool.exists_bool

/-- A construction raises what its check answers, INVALID_ARGUMENT. -/
theorem mayRaise_of_constructCheck {i : Instr} {s : State} {e : ErrCode}
    (hi : i = .init ∨ i = .initSeed) (h : constructCheck i s = some e) : MayRaise i s e := by
  rw [constructCheck_codes h]
  rintro rfl
  exact absurd hi (by decide)

/-- A transform raises what its check answers, the lifecycle codes in their lifecycle states. -/
theorem mayRaise_of_transformCheck {final : Bool} {s : State} {e : ErrCode}
    (h : transformCheck final s = some e) : MayRaise (transformInstr final) s e := by
  have hi := exists_eq_transformInstr.1 ⟨final, rfl⟩
  rcases transformCheck_codes h with ⟨hl, rfl⟩ | ⟨hl, rfl⟩ | ⟨-, rfl | rfl⟩
  · exact ⟨hi, hl⟩
  · exact ⟨hi, hl⟩
  · cases final <;> nofun
  · exact hi

/-- A command leaves a code it may raise. -/
theorem exec_mayRaise {i : Instr} {s t : State} (h : exec i s = .next t) : MayRaise i s t.err := by
  rcases exec_cases h with ⟨e, rfl, ⟨hi, hc⟩ | ⟨final, rfl, hc⟩⟩ | ⟨-, -, rfl⟩ | ⟨final, -, -, rfl⟩ |
    ⟨-, rfl⟩
  · exact mayRaise_of_constructCheck hi hc
  · exact mayRaise_of_transformCheck hc
  · rw [State.construct_err]
    trivial
  · trivial
  · trivial

/-! ### RESULT (R36) -/

/-- A transform that succeeded returns COUNT (R174, R176). -/
theorem exec_transformInstr_result {final : Bool} {s t : State}
    (h : exec (transformInstr final) s = .next t) (he : t.err = .none) :
    t.result = s.regs.count := by
  obtain ⟨-, rfl⟩ := exec_transformInstr_success h he
  exact State.succeed_result _ _

/-- A command returns 0, or it is a transform that succeeded. -/
theorem exec_result_eq_zero_or {i : Instr} {s t : State} (h : exec i s = .next t) :
    t.result = 0 ∨ ((∃ final, i = transformInstr final) ∧ t.err = .none) := by
  rcases exec_cases h with ⟨e, rfl, -⟩ | ⟨-, -, rfl⟩ | ⟨final, hi, -, rfl⟩ | ⟨-, rfl⟩
  · exact .inl rfl
  · exact .inl (s.construct_result _)
  · exact .inr ⟨⟨final, hi⟩, rfl⟩
  · exact .inl rfl

/-- Settles O23: the rows of `MayRaise`, one clause each, and the two lemmas on RESULT. -/
theorem errorCodesAndResultComeFromTheListedCommands :
    Obligations.ErrorCodesAndResultComeFromTheListedCommands := by
  intro s t i h
  have row {e : ErrCode} (he : t.err = e) : MayRaise i s e := he ▸ exec_mayRaise h
  refine ⟨row, row, row, row, row, fun he hi => ?_, fun hne => ?_⟩
  · obtain ⟨final, rfl⟩ := exists_eq_transformInstr.2 hi
    exact exec_transformInstr_result h he
  · rcases exec_result_eq_zero_or h with hz | ⟨hi, he⟩
    · exact hz
    · rcases hne with ⟨h1, h2⟩ | hne
      · exact absurd (exists_eq_transformInstr.1 hi) (not_or.2 ⟨h1, h2⟩)
      · exact absurd he hne

/-! ### What an error changes (R214) -/

/-- A command that leaves an error only raised it. -/
theorem exec_eq_raiseError {i : Instr} {s t : State} (h : exec i s = .next t) (he : t.err ≠ .none) :
    t = s.raiseError t.err := by
  rcases exec_cases h with ⟨e, rfl, -⟩ | ⟨-, -, rfl⟩ | ⟨final, -, -, rfl⟩ | ⟨-, rfl⟩
  · rfl
  · exact absurd (s.construct_err _) he
  · exact absurd rfl he
  · exact absurd rfl he

/-- Settles O22: the completion raised its error and cleared BUSY, whether a command or an ILLEGAL
word raised it. -/
theorem errorChangesOnlyErrResultAndBusy : Obligations.ErrorChangesOnlyErrResultAndBusy := by
  intro s t h he
  rcases completeCommand_cases h with ⟨i, u, -, hu, rfl⟩ | ⟨why, -, rfl⟩
  · exact congrArg State.clearBusy (exec_eq_raiseError hu he)
  · rfl

/-! ### How long ERR and RESULT stand (R215) -/

/-- No access, a read of STATUS or RESULT among them, changes ERR, RESULT or LSTATE. -/
theorem State.perform_outcome (s : State) (a : Access) :
    (s.perform a).err = s.err ∧ (s.perform a).result = s.result ∧
      (s.perform a).lstate = s.lstate := by
  rcases s.perform_cases a with e | ⟨v, e⟩ | ⟨w, addr, v, off, -, -, e⟩ <;> rw [e]
  · exact ⟨rfl, rfl, rfl⟩
  · exact ⟨rfl, rfl, rfl⟩
  · rw [State.busWrite_keeps]
    exact ⟨rfl, rfl, rfl⟩

/-- Settles O14: of the three moves that are left, two do nothing and the third is an access. -/
theorem outcomeKeepsUntilCompletionOrReset : Obligations.OutcomeKeepsUntilCompletionOrReset := by
  intro s t h hcomplete hreset
  rcases step_cases h with ⟨-, rfl⟩ | ⟨rest, -, rfl⟩ | ⟨a, rest, -, rfl⟩ | ⟨rest, hm, -⟩ |
    ⟨draw, ans, held, rest, hm, -⟩
  · exact ⟨rfl, rfl, rfl, rfl, rfl⟩
  · exact ⟨rfl, rfl, rfl, rfl, rfl⟩
  · obtain ⟨herr, hresult, hlstate⟩ := (s.setInputs rest).perform_outcome a
    obtain ⟨hgen1, hgen2⟩ := (s.setInputs rest).perform_generators a
    exact ⟨herr, hresult, hlstate, hgen1, hgen2⟩
  · exact absurd hm (hcomplete rest)
  · exact absurd hm (hreset draw ans held rest)

end Sys2Proof.Machine
end

section
/-! PROOFS. Reset and command sequencing (70_reset_and_hazards.md): acceptance, completion and reset as
single steps, and how many steps lead to BUSY = 0 and to the end of a list of inputs. -/

namespace Sys2Proof.Machine

/-! ### Acceptance (R244) -/

/-- Settles O9: an idle block performs the write, which accepts the word; a busy step that ends busy is
neither completion nor reset, so it only answered (`nothingChangesWhileACommandRuns`). -/
theorem idleCmdWriteAcceptsTheWord : Obligations.IdleCmdWriteAcceptsTheWord := by
  refine ⟨fun s w rest hb hin => ?_, fun s t hs h ht => ?_⟩
  · rw [step_idle_access hb hin, ← s.setInputs_params rest, State.perform_cmdWrite]
    rfl
  · have hcomplete (rest) : s.nextMove ≠ .complete rest := fun hm =>
      absurd (ht.symm.trans (busy_of_complete h hm)) (by decide)
    have hreset (draw ans held rest) : s.nextMove ≠ .reset draw ans held rest := fun hm =>
      absurd (ht.symm.trans (busy_of_reset h hm)) (by decide)
    rw [nothingChangesWhileACommandRuns s t hs h hcomplete hreset]

/-! ### Completion (R245) -/

/-- At the ENGINE's turn, or with nothing left to come, a busy block completes its command. -/
theorem step_busy_engine {s : State} (hb : s.busy = true) {rest : List Input}
    (h : s.inputs = .engine :: rest ∨ (s.inputs = [] ∧ rest = [])) :
    step s = completeCommand (s.setInputs rest) := by
  have hmove : s.nextMove = .complete rest := by
    rw [State.nextMove, if_pos hb]
    rcases h with hin | ⟨hin, rfl⟩ <;> rw [hin, busyMove]
  rw [step, hmove, takeMove]

/-- A word that decodes to a command completes with that command. -/
theorem completeCommand_of_command {s : State} {i : Instr} (h : decode s.cmdLatch = .command i) :
    completeCommand s = onNext State.clearBusy (exec i s) := by
  rw [completeCommand, runWord, h]

/-- Placing a 32-bit word accepts it and gives the ENGINE the next turn. -/
theorem State.withFetchWord_32 (s : State) (w : Nat) :
    s.withFetchWord 32 w = (s.acceptCommand (BitVec.ofNat 32 w)).setInputs (.engine :: s.inputs) := by
  have hword : BitVec.ofNat 32 (w % 2 ^ 32) = BitVec.ofNat 32 w :=
    BitVec.eq_of_toNat_eq (Nat.mod_mod w (2 ^ 32))
  rw [State.withFetchWord, State.placeCommand, hword]

/-- Settles O5: the completion step at the ENGINE's turn, also where `withFetchWord` gave that turn. -/
theorem completionStepRunsTheDecodedCommand : Obligations.CompletionStepRunsTheDecodedCommand := by
  have run (s : State) (i : Instr) (rest : List Input) (hb : s.busy = true)
      (hd : decode s.cmdLatch = .command i)
      (hin : s.inputs = .engine :: rest ∨ (s.inputs = [] ∧ rest = [])) :
      step s = onNext State.clearBusy (exec i (s.setInputs rest)) := by
    rw [step_busy_engine hb hin, completeCommand_of_command (s := s.setInputs rest) hd]
  refine ⟨run, fun s i w hd => ?_⟩
  rw [State.withFetchWord_32]
  exact run _ i s.inputs rfl hd (.inl rfl)

/-! ### UNINITIALIZED (R242) -/

/-- A command leaves LSTATE as it was, or enters READY or DISPOSED (R190). -/
theorem exec_lstate {i : Instr} {s t : State} (h : exec i s = .next t) :
    t.lstate = s.lstate ∨ t.lstate = .ready ∨ t.lstate = .disposed := by
  rcases exec_cases h with ⟨e, rfl, -⟩ | ⟨-, -, rfl⟩ | ⟨final, -, -, rfl⟩ | ⟨-, rfl⟩
  · exact .inl (s.raiseError_lstate e)
  · exact .inr (.inl (s.construct_lstate _))
  · exact .inl (transformed_lstate final s)
  · exact .inr (.inr rfl)

/-- A completion leaves LSTATE as it was, or its command enters READY or DISPOSED (R190). -/
theorem completeCommand_lstate {s t : State} (h : completeCommand s = .next t) :
    t.lstate = s.lstate ∨ t.lstate = .ready ∨ t.lstate = .disposed := by
  rcases completeCommand_cases h with ⟨i, u, -, hu, rfl⟩ | ⟨why, hd, -⟩
  · rw [State.clearBusy_lstate]
    exact exec_lstate hu
  · exact .inl (completeCommand_lstate_of_illegal hd h)

/-- Settles O15: a step that is no reset keeps LSTATE, or is a completion, which enters only READY
or DISPOSED. -/
theorem onlyResetEntersUninitialized : Obligations.OnlyResetEntersUninitialized := by
  intro s t h hs ht
  have changed : t.lstate ≠ s.lstate := fun e => hs (e.symm.trans ht)
  rcases step_cases h with ⟨-, rfl⟩ | ⟨rest, -, rfl⟩ | ⟨a, rest, -, rfl⟩ | ⟨rest, -, hc⟩ |
    ⟨draw, ans, held, rest, hm, -⟩
  · exact absurd rfl changed
  · exact absurd rfl changed
  · exact absurd ((s.setInputs rest).perform_outcome a).2.2 changed
  · rcases completeCommand_lstate hc with hkeep | hready | hdisposed
    · exact absurd hkeep changed
    · cases ht.symm.trans hready
    · cases ht.symm.trans hdisposed
  · exact ⟨draw, ans, held, rest, hm⟩

/-! ### Reset (R240, R241) -/

/-- A reset at the front of the inputs is the next step, whether a command runs or not. -/
theorem step_reset {s : State} {draw : List Byte} {ans : Bool} {rest : List Input}
    (hin : s.inputs = .reset draw ans :: rest) :
    step s = .next (s.resetBlock draw ans [] rest) := by
  have hmove : s.nextMove = .reset draw ans [] rest := by
    rw [State.nextMove, hin]
    exact ite_self _
  rw [step, hmove, takeMove]

/-- A reset behind held accesses is the next step of a busy block, and cancels them. -/
theorem step_busy_held_reset {s : State} (hb : s.busy = true) {a : Access}
    (ha : a ≠ .read .word (s.params.blockBase + 0x004)) {held : List Access} {draw : List Byte}
    {ans : Bool} {rest : List Input}
    (hin : s.inputs = .access a :: (held.map .access ++ .reset draw ans :: rest)) :
    step s = .next (s.resetBlock draw ans (a :: held) rest) := by
  have hmove : s.nextMove = .reset draw ans (a :: held) rest := by
    rw [State.nextMove, if_pos hb, hin, busyMove, if_neg (mt isStatusRead_iff.1 ha), heldMove_map]
    rfl
  rw [step, hmove, takeMove]

/-- Settles O52: the reset is the next step, before the completion; the accesses it cancels are
answered, or not, as its input says, and leave no other trace. -/
theorem resetAbandonsTheCommandAndHeldAccesses :
    Obligations.ResetAbandonsTheCommandAndHeldAccesses := by
  refine ⟨fun s draw ans rest hin => ?_, fun s a held draw ans rest hb ha hin => ?_⟩
  · rw [step_reset hin]
    cases ans <;> rfl
  · rw [step_busy_held_reset hb ha hin, State.resetBlock]
    cases ans with
    | false => rw [if_neg Bool.false_ne_true, if_neg Bool.false_ne_true, List.append_nil]
    | true =>
      rw [if_pos rfl, if_pos rfl, State.foldl_cancel]
      rfl

/-! ### Steps to BUSY = 0 and to the end of a run (R246, R247) -/

/-- A busy step takes an input, or leaves BUSY = 0 with no more inputs to come than before. -/
theorem step_busy_progress {s t : State} (hb : s.busy = true) (h : step s = .next t) :
    t.inputs.length < s.inputs.length ∨
    (t.busy = false ∧ t.inputs.length ≤ s.inputs.length) := by
  rcases nextMove_busy hb with ⟨rest, hin, -⟩ | ⟨rest, hm, hlen⟩ | ⟨draw, ans, held, rest, hm, hlen⟩
  · rw [step_busy_statusRead hb hin, Host.Outcome.next.injEq] at h
    rw [← h, hin]
    exact .inl (Nat.lt_succ_self rest.length)
  · have hbusy := busy_of_complete h hm
    rw [step, hm] at h
    have hinputs : t.inputs = rest := completeCommand_inputs h
    exact .inr ⟨hbusy, hinputs ▸ hlen⟩
  · rw [step, hm] at h
    rw [← Host.Outcome.next.inj h, State.resetBlock_eq]
    exact .inl hlen

/-- An idle step takes the next input, if one is to come. -/
theorem step_idle_inputs {s t : State} (hb : s.busy = false) (h : step s = .next t) :
    t.inputs = s.inputs.tail := by
  rcases nextMove_idle hb with ⟨hin, hm⟩ | ⟨rest, hin, hm⟩ | ⟨a, rest, hin, hm⟩ |
    ⟨draw, ans, rest, hin, hm⟩ <;>
  rw [step, hm] at h <;> rw [hin, ← Host.Outcome.next.inj h]
  · exact hin
  · rfl
  · exact State.perform_inputs (s.setInputs rest) a
  · rw [State.resetBlock_eq]
    rfl

/-- Where every step outside `P` lowers a measure, a run reaches `P` within that many steps. -/
theorem exists_runSteps_of_measure {P : State → Prop} {μ : State → Nat}
    (hlt : ∀ s t, ¬ P s → step s = .next t → μ t < μ s) (s : State) :
    ∃ k t, k ≤ μ s ∧ runSteps k s = .next t ∧ P t := by
  induction hn : μ s using Nat.strong_induction_on generalizing s with
  | _ n ih =>
    by_cases hP : P s
    · exact ⟨0, s, Nat.zero_le n, rfl, hP⟩
    · obtain ⟨t, ht⟩ := everyStepAnswersANextState s
      have hμ : μ t < n := hn ▸ hlt s t hP ht
      obtain ⟨k, u, hk, hrun, hu⟩ := ih (μ t) hμ t rfl
      exact ⟨k + 1, u, Nat.succ_le_of_lt (hk.trans_lt hμ), (runSteps_succ ht k).trans hrun, hu⟩

/-- A bound on the steps to BUSY = 0: one for each input to come, and one for a completion. -/
def State.stepsToIdle (s : State) : Nat := s.inputs.length + s.busy.toNat

/-- Every busy step lowers `State.stepsToIdle`. -/
theorem step_stepsToIdle_lt {s t : State} (hb : s.busy = true) (h : step s = .next t) :
    t.stepsToIdle < s.stepsToIdle := by
  rw [State.stepsToIdle, State.stepsToIdle, hb, Bool.toNat_true]
  have hle := t.busy.toNat_le
  rcases step_busy_progress hb h with hlen | ⟨hbusy, hlen⟩
  · omega
  · rw [hbusy, Bool.toNat_false]
    omega

/-- Settles O11: every step of the running command lowers `State.stepsToIdle`. -/
theorem acceptedCommandCompletes : Obligations.AcceptedCommandCompletes := by
  intro s _
  obtain ⟨k, t, hk, hrun, ht⟩ := exists_runSteps_of_measure (P := fun s => s.busy = false)
    (fun s t hP h => step_stepsToIdle_lt (Bool.not_eq_false _ ▸ hP) h) s
  exact ⟨k, t, hk.trans (Nat.add_le_add_left s.busy.toNat_le _), hrun, ht⟩

/-- A bound on the steps to the end of a run: an input may start a command, so each counts for itself
and for a completion, and a running command for one more. -/
def State.stepsToEnd (s : State) : Nat := 2 * s.inputs.length + s.busy.toNat

/-- Every step before the end of a run lowers `State.stepsToEnd`. -/
theorem step_stepsToEnd_lt {s t : State} (hend : ¬ s.scriptEnded) (h : step s = .next t) :
    t.stepsToEnd < s.stepsToEnd := by
  rw [State.stepsToEnd, State.stepsToEnd]
  have hle := t.busy.toNat_le
  cases hb : s.busy with
  | true =>
    rw [Bool.toNat_true]
    rcases step_busy_progress hb h with hlen | ⟨hbusy, hlen⟩
    · omega
    · rw [hbusy, Bool.toNat_false]
      omega
  | false =>
    have hpos : 0 < s.inputs.length := List.length_pos_of_ne_nil fun hin => hend ⟨hin, hb⟩
    rw [step_idle_inputs hb h, List.length_tail]
    omega

/-- Settles O12: every step before the end of the run lowers `State.stepsToEnd`. -/
theorem everyHostScriptEnds : Obligations.EveryHostScriptEnds := by
  intro s
  obtain ⟨k, t, hk, hrun, ht⟩ := exists_runSteps_of_measure (fun _ _ => step_stepsToEnd_lt) s
  exact ⟨k, t, hk.trans (Nat.add_le_add_left s.busy.toNat_le _), hrun, ht⟩

end Sys2Proof.Machine
end
